-- ==== Sys2Proof/Word.lean ====
section
/-! DEFINITION. The word types of WISC-F25 (00_scope.md R4, R8; 10_state.md R10): what the spec treats as bits. -/

namespace Sys2Proof

/-- A 32-bit value: a register, an address, an instruction word (00_scope.md R4, R8). -/
abbrev Word := BitVec 32

/-- A memory byte (20_memory.md R30). -/
abbrev Byte := BitVec 8

/-- A register index: the 5-bit field that names `x0` .. `x31` (10_state.md R10). -/
abbrev Reg := BitVec 5

end Sys2Proof
end

