-- ==== Sys2Proof/WellFormed.lean ====
section
/-! DEFINITION. Which instruction terms have an encoding. The types of the operands already bound every register index,
immediate and shift amount; what is left to check is that a branch or JAL offset is even, since bit 0 of `imm_B` and
`imm_J` is no bit of the instruction but the constant 0 (30_encoding.md R71, R73). -/

namespace Sys2Proof

/-- Bit 0 of a byte offset is the constant 0 (30_encoding.md R71, R73). -/
def evenOffset {n : Nat} (off : BitVec n) : Bool := off.getLsbD 0 == false

/-- The terms that some instruction word encodes. -/
def WellFormed : Instr → Bool
  | .add _ _ _ => true
  | .sub _ _ _ => true
  | .sll _ _ _ => true
  | .slt _ _ _ => true
  | .sltu _ _ _ => true
  | .xor _ _ _ => true
  | .srl _ _ _ => true
  | .sra _ _ _ => true
  | .or _ _ _ => true
  | .and _ _ _ => true
  | .addi _ _ _ => true
  | .slti _ _ _ => true
  | .sltiu _ _ _ => true
  | .andi _ _ _ => true
  | .ori _ _ _ => true
  | .xori _ _ _ => true
  | .slli _ _ _ => true
  | .srli _ _ _ => true
  | .srai _ _ _ => true
  | .lui _ _ => true
  | .auipc _ _ => true
  | .beq _ _ off => evenOffset off
  | .bne _ _ off => evenOffset off
  | .blt _ _ off => evenOffset off
  | .bge _ _ off => evenOffset off
  | .bltu _ _ off => evenOffset off
  | .bgeu _ _ off => evenOffset off
  | .jal _ off => evenOffset off
  | .jalr _ _ _ => true
  | .lb _ _ _ => true
  | .lbu _ _ _ => true
  | .lh _ _ _ => true
  | .lhu _ _ _ => true
  | .lw _ _ _ => true
  | .sb _ _ _ => true
  | .sh _ _ _ => true
  | .sw _ _ _ => true
  | .ebreak => true

end Sys2Proof
end

