-- ==== Sys2Proof/Decode.lean ====
section
/-! DEFINITION. The decoder (30_encoding.md R60 to R79), total on any word and any bytes, rejecting by the name of the
undefined space of R79; then the encoder, from the same format tables (R63 to R75); then the host's `decodeTableWord`.
The opcode and `funct3` values that R76, R77 and 90_conflicts.md C1 to C3 supply are the spec's, log entry 14. -/

namespace Sys2Proof

/-- Why a word is no instruction: the undefined spaces of 30_encoding.md R79, one constructor a row. -/
inductive DecodeError where
  /-- Fewer than four bytes are left (R60: every instruction is 32 bits long). -/
  | tooShort
  /-- `inst[1:0] != 0b11`: the 16-bit space. -/
  | sixteenBitSpace
  /-- `inst[1:0] = 0b11` and the major opcode is none of the ten of R76. -/
  | unusedOpcode
  /-- R-type with a `(funct7, funct3)` that is none of the ten pairs. -/
  | registerArithmetic
  /-- A shift-immediate whose `inst[31:25]` is not as drawn. -/
  | shiftImmediate
  /-- JALR opcode with `funct3 != 0b000`. -/
  | jumpRegister
  /-- Branch opcode with `funct3` 2 or 3. -/
  | branch
  /-- Load opcode with `funct3` 3, 6 or 7. -/
  | load
  /-- Store opcode with `funct3` 3 to 7. -/
  | store
  /-- Opcode `0b1110011` and not the one word of EBREAK. -/
  | system
deriving DecidableEq, Repr

/-! ### Fields (30_encoding.md R61, R62) -/

def opcodeField (w : Word) : BitVec 7 := w.extractLsb' 0 7
def rdField (w : Word) : Reg := w.extractLsb' 7 5
def funct3Field (w : Word) : BitVec 3 := w.extractLsb' 12 3
def rs1Field (w : Word) : Reg := w.extractLsb' 15 5
def rs2Field (w : Word) : Reg := w.extractLsb' 20 5
def funct7Field (w : Word) : BitVec 7 := w.extractLsb' 25 7

/-- `inst[31:20]`, the 12 bits of the I-immediate (R64, R69). -/
def immIField (w : Word) : BitVec 12 := w.extractLsb' 20 12

/-- `inst[24:20]`, the shift amount (R74). -/
def shamtField (w : Word) : BitVec 5 := w.extractLsb' 20 5

/-- `inst[31:25] ++ inst[11:7]`, the 12 bits of the S-immediate (R65, R70). -/
def immSField (w : Word) : BitVec 12 := w.extractLsb' 25 7 ++ w.extractLsb' 7 5

/-- `inst[31] ++ inst[7] ++ inst[30:25] ++ inst[11:8] ++ 0b0`, the 13-bit branch offset (R66, R71). -/
def immBField (w : Word) : BitVec 13 :=
  w.extractLsb' 31 1 ++ w.extractLsb' 7 1 ++ w.extractLsb' 25 6 ++ w.extractLsb' 8 4 ++ 0b0#1

/-- `inst[31:12]`, the 20-bit field of the U-immediate (R67, R72). -/
def immUField (w : Word) : BitVec 20 := w.extractLsb' 12 20

/-- `inst[31] ++ inst[19:12] ++ inst[20] ++ inst[30:21] ++ 0b0`, the 21-bit JAL offset (R68, R73). -/
def immJField (w : Word) : BitVec 21 :=
  w.extractLsb' 31 1 ++ w.extractLsb' 12 8 ++ w.extractLsb' 20 1 ++ w.extractLsb' 21 10 ++ 0b0#1

/-! ### The decoder (30_encoding.md R77) -/

/-- Opcode `0b0110011`: the ten `(funct7, funct3)` pairs of R77. -/
def decodeRegisterArithmetic (w : Word) : Except DecodeError Instr :=
  let f3 := funct3Field w
  let rd := rdField w
  let rs1 := rs1Field w
  let rs2 := rs2Field w
  if funct7Field w = 0b0000000#7 then
    if f3 = 0b000#3 then .ok (.add rd rs1 rs2)
    else if f3 = 0b001#3 then .ok (.sll rd rs1 rs2)
    else if f3 = 0b010#3 then .ok (.slt rd rs1 rs2)
    else if f3 = 0b011#3 then .ok (.sltu rd rs1 rs2)
    else if f3 = 0b100#3 then .ok (.xor rd rs1 rs2)
    else if f3 = 0b101#3 then .ok (.srl rd rs1 rs2)
    else if f3 = 0b110#3 then .ok (.or rd rs1 rs2)
    else .ok (.and rd rs1 rs2)
  else if funct7Field w = 0b0100000#7 then
    if f3 = 0b000#3 then .ok (.sub rd rs1 rs2)
    else if f3 = 0b101#3 then .ok (.sra rd rs1 rs2)
    else .error .registerArithmetic
  else .error .registerArithmetic

/-- Opcode `0b0010011`: the nine register-immediate instructions of R77. -/
def decodeRegisterImmediate (w : Word) : Except DecodeError Instr :=
  let f3 := funct3Field w
  let rd := rdField w
  let rs1 := rs1Field w
  if f3 = 0b000#3 then .ok (.addi rd rs1 (immIField w))
  else if f3 = 0b010#3 then .ok (.slti rd rs1 (immIField w))
  else if f3 = 0b011#3 then .ok (.sltiu rd rs1 (immIField w))
  else if f3 = 0b100#3 then .ok (.xori rd rs1 (immIField w))
  else if f3 = 0b110#3 then .ok (.ori rd rs1 (immIField w))
  else if f3 = 0b111#3 then .ok (.andi rd rs1 (immIField w))
  else if f3 = 0b001#3 then
    if funct7Field w = 0b0000000#7 then .ok (.slli rd rs1 (shamtField w))
    else .error .shiftImmediate
  else
    if funct7Field w = 0b0000000#7 then .ok (.srli rd rs1 (shamtField w))
    else if funct7Field w = 0b0100000#7 then .ok (.srai rd rs1 (shamtField w))
    else .error .shiftImmediate

/-- Opcode `0b1100011`: the six branches of R77. -/
def decodeBranch (w : Word) : Except DecodeError Instr :=
  let f3 := funct3Field w
  let rs1 := rs1Field w
  let rs2 := rs2Field w
  let off := immBField w
  if f3 = 0b000#3 then .ok (.beq rs1 rs2 off)
  else if f3 = 0b001#3 then .ok (.bne rs1 rs2 off)
  else if f3 = 0b100#3 then .ok (.blt rs1 rs2 off)
  else if f3 = 0b101#3 then .ok (.bge rs1 rs2 off)
  else if f3 = 0b110#3 then .ok (.bltu rs1 rs2 off)
  else if f3 = 0b111#3 then .ok (.bgeu rs1 rs2 off)
  else .error .branch

/-- Opcode `0b0000011`: the five loads of R77. -/
def decodeLoad (w : Word) : Except DecodeError Instr :=
  let f3 := funct3Field w
  let rd := rdField w
  let rs1 := rs1Field w
  let imm := immIField w
  if f3 = 0b000#3 then .ok (.lb rd rs1 imm)
  else if f3 = 0b001#3 then .ok (.lh rd rs1 imm)
  else if f3 = 0b010#3 then .ok (.lw rd rs1 imm)
  else if f3 = 0b100#3 then .ok (.lbu rd rs1 imm)
  else if f3 = 0b101#3 then .ok (.lhu rd rs1 imm)
  else .error .load

/-- Opcode `0b0100011`: the three stores of R77. -/
def decodeStore (w : Word) : Except DecodeError Instr :=
  let f3 := funct3Field w
  let rs1 := rs1Field w
  let rs2 := rs2Field w
  let imm := immSField w
  if f3 = 0b000#3 then .ok (.sb rs2 rs1 imm)
  else if f3 = 0b001#3 then .ok (.sh rs2 rs1 imm)
  else if f3 = 0b010#3 then .ok (.sw rs2 rs1 imm)
  else .error .store

/-- `decode` of 30_encoding.md R77: total, by `inst[6:0]`, then `funct3`, then the upper field. -/
def decode (w : Word) : Except DecodeError Instr :=
  let op := opcodeField w
  if op = 0b0110011#7 then decodeRegisterArithmetic w
  else if op = 0b0010011#7 then decodeRegisterImmediate w
  else if op = 0b0110111#7 then .ok (.lui (rdField w) (immUField w))
  else if op = 0b0010111#7 then .ok (.auipc (rdField w) (immUField w))
  else if op = 0b1101111#7 then .ok (.jal (rdField w) (immJField w))
  else if op = 0b1100111#7 then
    if funct3Field w = 0b000#3 then .ok (.jalr (rdField w) (rs1Field w) (immIField w))
    else .error .jumpRegister
  else if op = 0b1100011#7 then decodeBranch w
  else if op = 0b0000011#7 then decodeLoad w
  else if op = 0b0100011#7 then decodeStore w
  else if op = 0b1110011#7 then
    if w = 0x00100073#32 then .ok .ebreak else .error .system
  else if w.extractLsb' 0 2 = 0b11#2 then .error .unusedOpcode
  else .error .sixteenBitSpace

/-! ### Bytes (20_memory.md R33, R39: little-endian) -/

/-- The word whose byte at the lowest address is `b0`: `b3 ++ b2 ++ b1 ++ b0` (R39). -/
def wordOfBytes (b0 b1 b2 b3 : Byte) : Word := b3 ++ b2 ++ b1 ++ b0

/-- Byte `k` of a word, `v[8k+7 : 8k]` (R33). -/
def byteOfWord (v : Word) (k : Nat) : Byte := v.extractLsb' (8 * k) 8

/-- The four bytes of a word, lowest address first (R33). -/
def bytesOfWord (v : Word) : List Byte := [byteOfWord v 0, byteOfWord v 1, byteOfWord v 2, byteOfWord v 3]

/-- Decoding from bytes: the instruction and the bytes after it (R60: four bytes each). -/
def decodeBytes : List Byte → Except DecodeError (Instr × List Byte)
  | b0 :: b1 :: b2 :: b3 :: rest =>
    match decode (wordOfBytes b0 b1 b2 b3) with
    | .ok i => .ok (i, rest)
    | .error e => .error e
  | _ => .error .tooShort

/-! ### The encoder (30_encoding.md R63 to R68, R74, R75) -/

/-- R-type: `funct7 rs2 rs1 funct3 rd opcode` (R63); also the shift form of the I-type with `shamt` for `rs2` (R74). -/
def packR (funct7 : BitVec 7) (rs2 rs1 : BitVec 5) (funct3 : BitVec 3) (rd : Reg) (op : BitVec 7) : Word :=
  funct7 ++ rs2 ++ rs1 ++ funct3 ++ rd ++ op

/-- I-type: `imm[11:0] rs1 funct3 rd opcode` (R64). -/
def packI (imm : BitVec 12) (rs1 : Reg) (funct3 : BitVec 3) (rd : Reg) (op : BitVec 7) : Word :=
  imm ++ rs1 ++ funct3 ++ rd ++ op

/-- S-type: `imm[11:5] rs2 rs1 funct3 imm[4:0] opcode` (R65). -/
def packS (imm : BitVec 12) (rs2 rs1 : Reg) (funct3 : BitVec 3) (op : BitVec 7) : Word :=
  imm.extractLsb' 5 7 ++ rs2 ++ rs1 ++ funct3 ++ imm.extractLsb' 0 5 ++ op

/-- B-type: `imm[12] imm[10:5] rs2 rs1 funct3 imm[4:1] imm[11] opcode` (R66). -/
def packB (off : BitVec 13) (rs2 rs1 : Reg) (funct3 : BitVec 3) (op : BitVec 7) : Word :=
  off.extractLsb' 12 1 ++ off.extractLsb' 5 6 ++ rs2 ++ rs1 ++ funct3 ++ off.extractLsb' 1 4
    ++ off.extractLsb' 11 1 ++ op

/-- U-type: `imm[31:12] rd opcode` (R67). -/
def packU (imm : BitVec 20) (rd : Reg) (op : BitVec 7) : Word := imm ++ rd ++ op

/-- J-type: `imm[20] imm[10:1] imm[11] imm[19:12] rd opcode` (R68). -/
def packJ (off : BitVec 21) (rd : Reg) (op : BitVec 7) : Word :=
  off.extractLsb' 20 1 ++ off.extractLsb' 1 10 ++ off.extractLsb' 11 1 ++ off.extractLsb' 12 8 ++ rd ++ op

/-- The word of an instruction, from the field values of 30_encoding.md section 5. -/
def encode : Instr → Word
  | .add rd rs1 rs2 => packR 0b0000000 rs2 rs1 0b000 rd 0b0110011
  | .sub rd rs1 rs2 => packR 0b0100000 rs2 rs1 0b000 rd 0b0110011
  | .sll rd rs1 rs2 => packR 0b0000000 rs2 rs1 0b001 rd 0b0110011
  | .slt rd rs1 rs2 => packR 0b0000000 rs2 rs1 0b010 rd 0b0110011
  | .sltu rd rs1 rs2 => packR 0b0000000 rs2 rs1 0b011 rd 0b0110011
  | .xor rd rs1 rs2 => packR 0b0000000 rs2 rs1 0b100 rd 0b0110011
  | .srl rd rs1 rs2 => packR 0b0000000 rs2 rs1 0b101 rd 0b0110011
  | .sra rd rs1 rs2 => packR 0b0100000 rs2 rs1 0b101 rd 0b0110011
  | .or rd rs1 rs2 => packR 0b0000000 rs2 rs1 0b110 rd 0b0110011
  | .and rd rs1 rs2 => packR 0b0000000 rs2 rs1 0b111 rd 0b0110011
  | .addi rd rs1 imm => packI imm rs1 0b000 rd 0b0010011
  | .slti rd rs1 imm => packI imm rs1 0b010 rd 0b0010011
  | .sltiu rd rs1 imm => packI imm rs1 0b011 rd 0b0010011
  | .andi rd rs1 imm => packI imm rs1 0b111 rd 0b0010011
  | .ori rd rs1 imm => packI imm rs1 0b110 rd 0b0010011
  | .xori rd rs1 imm => packI imm rs1 0b100 rd 0b0010011
  | .slli rd rs1 shamt => packR 0b0000000 shamt rs1 0b001 rd 0b0010011
  | .srli rd rs1 shamt => packR 0b0000000 shamt rs1 0b101 rd 0b0010011
  | .srai rd rs1 shamt => packR 0b0100000 shamt rs1 0b101 rd 0b0010011
  | .lui rd imm => packU imm rd 0b0110111
  | .auipc rd imm => packU imm rd 0b0010111
  | .beq rs1 rs2 off => packB off rs2 rs1 0b000 0b1100011
  | .bne rs1 rs2 off => packB off rs2 rs1 0b001 0b1100011
  | .blt rs1 rs2 off => packB off rs2 rs1 0b100 0b1100011
  | .bge rs1 rs2 off => packB off rs2 rs1 0b101 0b1100011
  | .bltu rs1 rs2 off => packB off rs2 rs1 0b110 0b1100011
  | .bgeu rs1 rs2 off => packB off rs2 rs1 0b111 0b1100011
  | .jal rd off => packJ off rd 0b1101111
  | .jalr rd rs1 imm => packI imm rs1 0b000 rd 0b1100111
  | .lb rd rs1 imm => packI imm rs1 0b000 rd 0b0000011
  | .lbu rd rs1 imm => packI imm rs1 0b100 rd 0b0000011
  | .lh rd rs1 imm => packI imm rs1 0b001 rd 0b0000011
  | .lhu rd rs1 imm => packI imm rs1 0b101 rd 0b0000011
  | .lw rd rs1 imm => packI imm rs1 0b010 rd 0b0000011
  | .sb rs2 rs1 imm => packS imm rs2 rs1 0b000 0b0100011
  | .sh rs2 rs1 imm => packS imm rs2 rs1 0b001 0b0100011
  | .sw rs2 rs1 imm => packS imm rs2 rs1 0b010 0b0100011
  | .ebreak => packI 0b000000000001 0b00000 0b000 0b00000 0b1110011

/-- The four bytes of an instruction as they lie in memory, lowest address first (20_memory.md R33, R39). -/
def encodeBytes (i : Instr) : List Byte := bytesOfWord (encode i)

/-! ### The opcode table (opcode_table.json) -/

/-- One row of the opcode table: the mnemonic, and the bits that a word of the instruction has. -/
structure OpcodeRow where
  mnemonic : String
  mask : Word
  value : Word
deriving DecidableEq, Repr

/-- The 38 rows, in the table's order. -/
def opcodeTable : List OpcodeRow := [
  ⟨"ADD", 0xFE00707F, 0x00000033⟩,
  ⟨"SUB", 0xFE00707F, 0x40000033⟩,
  ⟨"SLL", 0xFE00707F, 0x00001033⟩,
  ⟨"SLT", 0xFE00707F, 0x00002033⟩,
  ⟨"SLTU", 0xFE00707F, 0x00003033⟩,
  ⟨"XOR", 0xFE00707F, 0x00004033⟩,
  ⟨"SRL", 0xFE00707F, 0x00005033⟩,
  ⟨"SRA", 0xFE00707F, 0x40005033⟩,
  ⟨"OR", 0xFE00707F, 0x00006033⟩,
  ⟨"AND", 0xFE00707F, 0x00007033⟩,
  ⟨"ADDI", 0x0000707F, 0x00000013⟩,
  ⟨"SLTI", 0x0000707F, 0x00002013⟩,
  ⟨"SLTIU", 0x0000707F, 0x00003013⟩,
  ⟨"ANDI", 0x0000707F, 0x00007013⟩,
  ⟨"ORI", 0x0000707F, 0x00006013⟩,
  ⟨"XORI", 0x0000707F, 0x00004013⟩,
  ⟨"SLLI", 0xFE00707F, 0x00001013⟩,
  ⟨"SRLI", 0xFE00707F, 0x00005013⟩,
  ⟨"SRAI", 0xFE00707F, 0x40005013⟩,
  ⟨"LUI", 0x0000007F, 0x00000037⟩,
  ⟨"AUIPC", 0x0000007F, 0x00000017⟩,
  ⟨"BEQ", 0x0000707F, 0x00000063⟩,
  ⟨"BNE", 0x0000707F, 0x00001063⟩,
  ⟨"BLT", 0x0000707F, 0x00004063⟩,
  ⟨"BGE", 0x0000707F, 0x00005063⟩,
  ⟨"BLTU", 0x0000707F, 0x00006063⟩,
  ⟨"BGEU", 0x0000707F, 0x00007063⟩,
  ⟨"JAL", 0x0000007F, 0x0000006F⟩,
  ⟨"JALR", 0x0000707F, 0x00000067⟩,
  ⟨"LB", 0x0000707F, 0x00000003⟩,
  ⟨"LBU", 0x0000707F, 0x00004003⟩,
  ⟨"LH", 0x0000707F, 0x00001003⟩,
  ⟨"LHU", 0x0000707F, 0x00005003⟩,
  ⟨"LW", 0x0000707F, 0x00002003⟩,
  ⟨"SB", 0x0000707F, 0x00000023⟩,
  ⟨"SH", 0x0000707F, 0x00001023⟩,
  ⟨"SW", 0x0000707F, 0x00002023⟩,
  ⟨"EBREAK", 0xFFFFFFFF, 0x00100073⟩]

/-- The row of the opcode table an instruction belongs to, by its mnemonic. -/
def mnemonicOf : Instr → String
  | .add _ _ _ => "ADD"
  | .sub _ _ _ => "SUB"
  | .sll _ _ _ => "SLL"
  | .slt _ _ _ => "SLT"
  | .sltu _ _ _ => "SLTU"
  | .xor _ _ _ => "XOR"
  | .srl _ _ _ => "SRL"
  | .sra _ _ _ => "SRA"
  | .or _ _ _ => "OR"
  | .and _ _ _ => "AND"
  | .addi _ _ _ => "ADDI"
  | .slti _ _ _ => "SLTI"
  | .sltiu _ _ _ => "SLTIU"
  | .andi _ _ _ => "ANDI"
  | .ori _ _ _ => "ORI"
  | .xori _ _ _ => "XORI"
  | .slli _ _ _ => "SLLI"
  | .srli _ _ _ => "SRLI"
  | .srai _ _ _ => "SRAI"
  | .lui _ _ => "LUI"
  | .auipc _ _ => "AUIPC"
  | .beq _ _ _ => "BEQ"
  | .bne _ _ _ => "BNE"
  | .blt _ _ _ => "BLT"
  | .bge _ _ _ => "BGE"
  | .bltu _ _ _ => "BLTU"
  | .bgeu _ _ _ => "BGEU"
  | .jal _ _ => "JAL"
  | .jalr _ _ _ => "JALR"
  | .lb _ _ _ => "LB"
  | .lbu _ _ _ => "LBU"
  | .lh _ _ _ => "LH"
  | .lhu _ _ _ => "LHU"
  | .lw _ _ _ => "LW"
  | .sb _ _ _ => "SB"
  | .sh _ _ _ => "SH"
  | .sw _ _ _ => "SW"
  | .ebreak => "EBREAK"

/-! ### The host's question -/

/-- The 32-bit word of an instruction whose `nbits` low bits are `w`, every bit above them 0. -/
def tableWord (nbits w : Nat) : Word := BitVec.ofNat 32 (w % 2 ^ nbits)

/-- The instruction the decoder reads from the bytes of a table word laid out as memory holds them. -/
def decodeTableWord (nbits w : Nat) : Option Instr :=
  match decodeBytes (bytesOfWord (tableWord nbits w)) with
  | .ok (i, _) => some i
  | .error _ => none

end Sys2Proof
end

