-- ==== Sys2Proof/Config.lean ====
section
/-! DEFINITION. What the platform fixes and what the spec leaves open: the five parameters of 00_scope.md R6 as plain
data, and the free values (opaque constants without a body) for what the spec calls unspecified (70_reset_and_hazards.md
R241, 93_implementation_defined.md U1, U2, U8). -/

namespace Sys2Proof

/-- The bytes of a memory that have a value: pairs of a byte address and its byte, addresses strictly rising
(`Memory.wf`). An address that is not listed has NO VALUE; that is the one definition of what an unlisted address
reads as at this level (DESIGN CHOICE, log entry 2). -/
abbrev Memory := List Host.Cell

/-- The byte addresses `base .. base + size - 1`. -/
structure AddrRange where
  base : Nat
  size : Nat
deriving DecidableEq, Repr

/-- A set of byte addresses, as a union of ranges (the shape of `IMEM` and `DMEM`, 00_scope.md R6). -/
abbrev AddrSet := List AddrRange

namespace Config

/-- The value of register `i` right after reset, which the spec leaves unspecified and forbids to read as zero
(10_state.md R24, 70_reset_and_hazards.md R241). DESIGN CHOICE, log entry 1: an opaque constant. -/
opaque resetReg : Nat → Word

/-- What a load reads at an address whose byte neither `INIT_MEM` nor a store has given a value
(93_implementation_defined.md U2: any value). DESIGN CHOICE, log entry 2: an opaque constant. -/
opaque initByte : Word → Byte

/-- The parameter `UNIFIED` of the default platform, for which the spec suggests no value: "prove independently of it"
(20_memory.md R40, 92_eei_decisions.md). DESIGN CHOICE, log entry 5: an opaque constant. -/
opaque unified : Bool

end Config

/-- The parameters the sources leave open (00_scope.md R6). They are constant during a run. -/
structure Platform where
  /-- `RESET_PC`, a multiple of 4 (D4). -/
  resetPc : Word
  /-- `IMEM`, the fetchable byte addresses (D2). -/
  imemSet : AddrSet
  /-- `DMEM`, the loadable and storable byte addresses (D2). -/
  dmemSet : AddrSet
  /-- `UNIFIED`, whether fetch and load/store see the same bytes (D3). -/
  unified : Bool
  /-- `INIT_MEM`, the program image and data the host places before reset (D6). -/
  initMem : Memory
deriving DecidableEq, Repr

/-- All `2^32` byte addresses. -/
def AddrSet.all : AddrSet := [{ base := 0, size := 4294967296 }]

/-- The defaults of 92_eei_decisions.md, "Parameters left open, in one place" (log entries 4, 5 and 6). -/
def Platform.default : Platform where
  resetPc := 0x00000000#32
  imemSet := AddrSet.all
  dmemSet := AddrSet.all
  unified := Config.unified
  initMem := []

end Sys2Proof
end

