-- ==== Sys2Proof/Machine/Regions.lean ====
section
/-! DEFINITION. Membership of a byte address in a set of addresses (`IMEM`, `DMEM`: 20_memory.md R41). -/

namespace Sys2Proof.Machine

/-- Whether a byte address lies in a set of addresses. -/
def memberAddr (rs : AddrSet) (a : Nat) : Bool :=
  rs.any fun r => decide (r.base ≤ a ∧ a < r.base + r.size)

end Sys2Proof.Machine
end

