-- ==== Sys2Proof/Machine/State.lean ====
section
/-! DEFINITION. The state of a WISC-F25 machine (10_state.md section 1), the reasons a step can stop, and the state after
reset (70_reset_and_hazards.md R240). State is plain data. -/

namespace Sys2Proof.Machine

/-- The fault records of 60_exceptions.md R211: what `raise` writes into the state. They are part of the machine's state,
not a stop of the model. -/
inductive FaultRecord where
  /-- A taken branch, JAL or JALR to the target `t` with `t[1:0] != 0` (R210). -/
  | instructionAddressMisaligned (t : Word)
  /-- The word `inst` fetched at `pc` is undefined (30_encoding.md R78). -/
  | illegalInstruction (pc inst : Word)
  /-- LH, LHU or LW at an address that is no multiple of the size (20_memory.md R37). -/
  | loadAddressMisaligned (a : Word)
  /-- SH or SW at an address that is no multiple of the size (20_memory.md R37). -/
  | storeAddressMisaligned (a : Word)
  /-- One of `pc .. pc+3` is not in `IMEM` (20_memory.md R41). -/
  | fetchAccessFault (pc : Word)
  /-- A byte loaded is not in `DMEM` (20_memory.md R41). -/
  | loadAccessFault (a : Word)
  /-- A byte stored is not in `DMEM` (20_memory.md R41). -/
  | storeAccessFault (a : Word)
deriving DecidableEq, Repr

/-- The state: every item of the table of 10_state.md section 1, and the platform parameters of 00_scope.md R6, which no
step changes. -/
structure State where
  /-- `x1` .. `x31`, `x1` first; `x0` is the constant 0 and has no slot (10_state.md R10, R11). -/
  x : Vector Word 31
  /-- The program counter (10_state.md R14). -/
  pc : Word
  /-- The data view of memory (20_memory.md R30, R40); also what a fetch sees if `UNIFIED`. -/
  mem : Memory
  /-- The instruction view of memory if not `UNIFIED`, which no instruction writes (20_memory.md R40). -/
  imem : Memory
  /-- The halt signal (10_state.md R21). -/
  halted : Bool
  /-- The fault record, if one was raised (60_exceptions.md R212). -/
  fault : Option FaultRecord
  /-- The parameters of the platform (00_scope.md R6). -/
  plat : Platform
deriving DecidableEq, Repr

/-- Why a state has no step (10_state.md R20). Raised by `step` alone; no instruction's meaning answers with one. -/
inductive Fault where
  /-- `halted = 1`: the machine has stopped at an EBREAK (10_state.md R20, R21). Safe: the spec gives no step. -/
  | halted
  /-- `fault != none`: the machine has stopped with this record (10_state.md R20, 60_exceptions.md R212). Safe: the spec
  gives no step. -/
  | faulted (r : FaultRecord)
deriving DecidableEq, Repr

/-- What the model gives no meaning to. No instruction's meaning answers with one. -/
inductive Refusal where
  /-- An instruction without a meaning yet. Raised by `exec`'s refused arms; there is none left. Safe. -/
  | notModelled (mnemonic : String)
  /-- A fetch of a byte that neither `INIT_MEM` nor a store has given a value: "A fetch of such bytes is best refused: its
  decode would be arbitrary" (93_implementation_defined.md U2). Raised by the fetch. Safe. -/
  | unwrittenFetch
  /-- A fetch with `pc[1:0] != 0`, which never happens and to which the spec gives no meaning (20_memory.md R38, R39).
  Raised by the fetch, in states no run reaches. Safe. -/
  | misalignedFetch
deriving DecidableEq, Repr

/-- The outcome of one step of this machine. -/
abbrev Outcome := Host.Outcome State Fault Refusal

/-- The canonical form of a memory: addresses strictly rising and below `2^32`. An unlisted address has no value, so no
entry can equal what one reads as. -/
abbrev Memory.wf (m : Memory) : Prop :=
  m.Pairwise (fun c d => c.1 < d.1) ∧ ∀ c ∈ m, c.1 < 4294967296

/-- The constraints on the parameters: `RESET_PC` is a multiple of 4; `IMEM` is closed under aligned words, each of its
ranges being made of whole words; `INIT_MEM` is in the canonical form (00_scope.md R6). -/
abbrev Platform.wf (p : Platform) : Prop :=
  p.resetPc.toNat % 4 = 0 ∧ (∀ r ∈ p.imemSet, r.base % 4 = 0 ∧ r.size % 4 = 0) ∧ Memory.wf p.initMem

/-- The registers right after reset: `x1` .. `x31` unspecified, each a free value (10_state.md R24; log entry 1). -/
def resetRegs : Vector Word 31 := ⟨((List.range 31).map fun k => Config.resetReg (k + 1)).toArray, by simp⟩

/-- The machine right after a reset on platform `p` (70_reset_and_hazards.md R240). A reset is the one event outside the
instruction set; it is no step. -/
def State.resetOf (p : Platform) : State where
  x := resetRegs
  pc := p.resetPc
  mem := p.initMem
  imem := p.initMem.filter fun c => memberAddr p.imemSet c.1
  halted := false
  fault := none
  plat := p

/-- The machine right after reset on the default platform, with nothing placed in memory (log entries 4 to 6). -/
def State.reset : State := State.resetOf Platform.default

end Sys2Proof.Machine
end

