-- ==== Sys2Proof/Machine/Ops.lean ====
section
/-! DEFINITION. The named operations over registers, memory and the rest of the state, and the effect of `raise`
(00_scope.md R9, 20_memory.md R34, R35, R39, 60_exceptions.md R212). -/

namespace Sys2Proof.Machine

/-! ### General registers (10_state.md R10, R11) -/

/-- The slot of `x i` for `i ≠ 0`. -/
def slot (i : Reg) : Nat := i.toNat - 1

theorem slot_lt (i : Reg) : slot i < 31 := by
  have h := i.isLt
  unfold slot
  omega

/-- Read `x[i]`; `x[0]` is `0x00000000` in every state (R11). -/
def readReg (s : State) (i : Reg) : Word :=
  if i = 0#5 then 0x00000000#32 else s.x[slot i]'(slot_lt i)

/-- Write `x[i]`; a write with `i = 0` is discarded (R11). -/
def writeReg (s : State) (i : Reg) (v : Word) : State :=
  if i = 0#5 then s else { s with x := s.x.set (slot i) v (slot_lt i) }

/-! ### The other fields -/

/-- The next instruction is fetched from `t` (00_scope.md R9). -/
def setPc (s : State) (t : Word) : State := { s with pc := t }

/-- `pc <- pc + 4`, modulo `2^32` (10_state.md R15, R17). -/
def advance (s : State) : State := setPc s (s.pc + 4#32)

/-- Replace the data view of memory. -/
def setMem (s : State) (m : Memory) : State := { s with mem := m }

/-- `halt`: `halted <- 1`, and nothing else (46_system.md R200). -/
def halt (s : State) : State := { s with halted := true }

/-- TAKING AN EXCEPTION, `raise r` (60_exceptions.md R212): the record is written; registers, memory, `halted` and `pc`
are unchanged, so `pc` keeps the address of the faulting instruction. There is no trap entry and no return from one
(R215, R216): the faulted state has no step. -/
def raise (s : State) (r : FaultRecord) : State := { s with fault := some r }

/-! ### One byte of memory -/

/-- The byte a memory holds at an address, if it has a value. -/
def Memory.get? : Memory → Nat → Option Byte
  | [], _ => none
  | (b, v) :: rest, a => if b = a then some v else Memory.get? rest a

/-- Give the byte at an address a value, keeping the canonical form. -/
def Memory.put : Memory → Nat → Byte → Memory
  | [], a, v => [(a, v)]
  | (b, u) :: rest, a, v =>
    if a < b then (a, v) :: (b, u) :: rest
    else if a = b then (a, v) :: rest
    else (b, u) :: Memory.put rest a v

/-- The byte a load reads at `a`: the value there, or the free byte of an address that has none (log entry 2). -/
def byteAt (m : Memory) (a : Word) : Byte := (Memory.get? m a.toNat).getD (Config.initByte a)

/-- Address `a + k` modulo `2^32` (20_memory.md R34, R42). -/
def offsetAddr (a : Word) (k : Nat) : Word := a + BitVec.ofNat 32 k

/-! ### Reads and writes of 1, 2 and 4 bytes, little-endian (20_memory.md R33 to R35) -/

/-- `MemRead(a, 1)`. -/
def memRead1 (m : Memory) (a : Word) : BitVec 8 := byteAt m a

/-- `MemRead(a, 2)`. -/
def memRead2 (m : Memory) (a : Word) : BitVec 16 := byteAt m (offsetAddr a 1) ++ byteAt m a

/-- `MemRead(a, 4)`. -/
def memRead4 (m : Memory) (a : Word) : Word :=
  wordOfBytes (byteAt m a) (byteAt m (offsetAddr a 1)) (byteAt m (offsetAddr a 2)) (byteAt m (offsetAddr a 3))

/-- Write bytes at `a`, `a + 1`, … in this order. -/
def writeBytes : Memory → Word → List Byte → Memory
  | m, _, [] => m
  | m, a, b :: bs => writeBytes (Memory.put m a.toNat b) (offsetAddr a 1) bs

/-- `MemWrite(a, n, v)` where `v` is the low `n` bytes of the word `v`. -/
def memWrite (m : Memory) (a : Word) (n : Nat) (v : Word) : Memory :=
  writeBytes m a ((bytesOfWord v).take n)

/-! ### The checks before an access (20_memory.md R34, R35, R37, R41) -/

/-- The three access widths (20_memory.md R32). -/
inductive Width where
  | byte
  | half
  | word
deriving DecidableEq, Repr

/-- The number of bytes of an access. -/
def widthBytes : Width → Nat
  | .byte => 1
  | .half => 2
  | .word => 4

/-- A half-word is at an even address, a word at a multiple of 4, a byte anywhere (R37). -/
def alignedFor (w : Width) (a : Word) : Bool := a.toNat % widthBytes w == 0

/-- All `n` byte addresses from `a` on, modulo `2^32`, lie in the set. -/
def allIn (rs : AddrSet) (a : Word) (n : Nat) : Bool :=
  (List.range n).all fun k => memberAddr rs (offsetAddr a k).toNat

/-- The record a load of this width at `a` raises, if any: misaligned before access (R34, 60_exceptions.md R214). -/
def loadFault (p : Platform) (w : Width) (a : Word) : Option FaultRecord :=
  if alignedFor w a = false then some (.loadAddressMisaligned a)
  else if allIn p.dmemSet a (widthBytes w) = false then some (.loadAccessFault a)
  else none

/-- The record a store of this width at `a` raises, if any: misaligned before access (R35, 60_exceptions.md R214). -/
def storeFault (p : Platform) (w : Width) (a : Word) : Option FaultRecord :=
  if alignedFor w a = false then some (.storeAddressMisaligned a)
  else if allIn p.dmemSet a (widthBytes w) = false then some (.storeAccessFault a)
  else none

/-! ### Instruction fetch (20_memory.md R39, R40) -/

/-- The instruction word a view of memory holds at `a`, if all its four bytes have a value (R39). -/
def wordIn (m : Memory) (a : Word) : Option Word :=
  match Memory.get? m a.toNat, Memory.get? m (offsetAddr a 1).toNat, Memory.get? m (offsetAddr a 2).toNat,
    Memory.get? m (offsetAddr a 3).toNat with
  | some b0, some b1, some b2, some b3 => some (wordOfBytes b0 b1 b2 b3)
  | _, _, _, _ => none

/-- `Fetch(a)`: the word of the data view if `UNIFIED`, else of the instruction view (R40). Where the two views agree the
word is theirs whatever `UNIFIED` is; the test for that comes first so that a fetch of unmodified code can be evaluated
without the parameter (92_eei_decisions.md: "prove independently of it"). -/
def fetchWord (s : State) (a : Word) : Option Word :=
  let u := wordIn s.mem a
  let h := wordIn s.imem a
  if u = h then u else if s.plat.unified then u else h

/-- What the first four parts of the step rule find at `pc` (10_state.md R20). -/
inductive Fetched where
  /-- The machine has stopped: there is no step. -/
  | stops (f : Fault)
  /-- The model gives the fetch no meaning. -/
  | refuses (r : Refusal)
  /-- The fetch or the decoding raises this fault. -/
  | raises (r : FaultRecord)
  /-- This instruction is to be executed. -/
  | runs (i : Instr)
deriving DecidableEq, Repr

/-- Parts 1 to 4 of the step rule (10_state.md R20), in the order of 60_exceptions.md R214. -/
def fetchInstr (s : State) : Fetched :=
  if s.halted then .stops .halted
  else match s.fault with
    | some r => .stops (.faulted r)
    | none =>
      if s.pc.toNat % 4 ≠ 0 then .refuses .misalignedFetch
      else if allIn s.plat.imemSet s.pc 4 = false then .raises (.fetchAccessFault s.pc)
      else match fetchWord s s.pc with
        | none => .refuses .unwrittenFetch
        | some w =>
          match decode w with
          | .error _ => .raises (.illegalInstruction s.pc w)
          | .ok i => .runs i

/-- The host places one word of `INIT_MEM` at `a`: its bytes stand in both views of memory (20_memory.md R40). -/
def placeWord (s : State) (a : Word) (w : Word) : State :=
  { s with mem := memWrite s.mem a 4 w, imem := memWrite s.imem a 4 w }

end Sys2Proof.Machine
end

