-- ==== Sys2Proof/Machine/Operands.lean ====
section
/-! DEFINITION. Every operand form: the five 32-bit immediates (30_encoding.md R69 to R73), shift amounts (R74,
40_register_arithmetic.md R100), effective addresses (45_loads_stores.md R180) and control-transfer targets
(43_branches.md R150, 44_jumps.md R171, R172). -/

namespace Sys2Proof.Machine

/-- `sext_N` of 00_scope.md R8. -/
def sext {n : Nat} (v : BitVec n) : Word := v.signExtend 32

/-- `zext_N` of 00_scope.md R8. -/
def zext {n : Nat} (v : BitVec n) : Word := v.zeroExtend 32

/-- `imm_I`, from the 12 bits of the I-type (30_encoding.md R69). -/
def immI (imm : BitVec 12) : Word := sext imm

/-- `imm_S`, from the 12 bits of the S-type (30_encoding.md R70). -/
def immS (imm : BitVec 12) : Word := sext imm

/-- `imm_B`, from the 13-bit offset whose bit 0 is 0 (30_encoding.md R71). -/
def immB (off : BitVec 13) : Word := sext off

/-- `imm_U = inst[31:12] ++ 0x000` (30_encoding.md R72). -/
def immU (imm : BitVec 20) : Word := imm ++ 0x000#12

/-- `imm_J`, from the 21-bit offset whose bit 0 is 0 (30_encoding.md R73). -/
def immJ (off : BitVec 21) : Word := sext off

/-- The shift amount in a register: its low five bits (40_register_arithmetic.md R100). -/
def shiftAmount (v : Word) : Nat := (v.extractLsb' 0 5).toNat

/-- The address of a load, `x[rs1] + imm_I` (45_loads_stores.md R180). -/
def loadAddr (s : State) (rs1 : Reg) (imm : BitVec 12) : Word := readReg s rs1 + immI imm

/-- The address of a store, `x[rs1] + imm_S` (45_loads_stores.md R180). -/
def storeAddr (s : State) (rs1 : Reg) (imm : BitVec 12) : Word := readReg s rs1 + immS imm

/-- The target of a branch, `pc + imm_B` (43_branches.md R150). -/
def branchTarget (s : State) (off : BitVec 13) : Word := s.pc + immB off

/-- The target of JAL, `pc + imm_J` (44_jumps.md R171). -/
def jalTarget (s : State) (off : BitVec 21) : Word := s.pc + immJ off

/-- The target of JALR, `(x[rs1] + imm_I) & 0xFFFFFFFE` (44_jumps.md R172). -/
def jalrTarget (s : State) (rs1 : Reg) (imm : BitVec 12) : Word := (readReg s rs1 + immI imm) &&& 0xFFFFFFFE#32

/-- The link value, the address of the next instruction in memory (44_jumps.md R170). -/
def linkValue (s : State) : Word := s.pc + 4#32

/-! ### The shapes of effect the families share -/

/-- `x[rd] <- v; pc <- pc + 4`. -/
def setAndAdvance (s : State) (rd : Reg) (v : Word) : State := advance (writeReg s rd v)

/-- A control transfer to `target` from `s`: a target that is no multiple of 4 raises on the transferring instruction and
nothing else happens; otherwise the state is `t` with `pc` at the target (60_exceptions.md R210). -/
def transfer (s : State) (target : Word) (t : State) : State :=
  if target.toNat % 4 = 0 then setPc t target else raise s (.instructionAddressMisaligned target)

/-- A conditional branch (43_branches.md R150). -/
def branchIf (s : State) (cond : Bool) (off : BitVec 13) : State :=
  if cond then transfer s (branchTarget s off) s else advance s

/-- A load of this width at `a`: its checks, then `value` of the data view into `rd` (45_loads_stores.md R180). -/
def loadInto (s : State) (w : Width) (rd : Reg) (a : Word) (value : Memory → Word → Word) : State :=
  match loadFault s.plat w a with
  | some r => raise s r
  | none => setAndAdvance s rd (value s.mem a)

/-- A store of this width at `a`: its checks, then the low bytes of `v` into memory (45_loads_stores.md R180). -/
def storeFrom (s : State) (w : Width) (a : Word) (v : Word) : State :=
  match storeFault s.plat w a with
  | some r => raise s r
  | none => advance (setMem s (memWrite s.mem a (widthBytes w) v))

end Sys2Proof.Machine
end

