-- ==== Sys2Proof/Machine/Flags.lean ====
section
/-! DEFINITION. WISC-F25 has no flags: "there is no implicit flags register to track" (10_state.md R18). What stands here is
what the machine has in their place: the comparisons of the set-less-than instructions and the branches, and the shifts
(40_register_arithmetic.md R100, 43_branches.md R151 to R156). -/

namespace Sys2Proof.Machine

/-- `s(a) < s(b)`, exact (40_register_arithmetic.md R104). -/
def lessSigned (a b : Word) : Bool := decide (a.toInt < b.toInt)

/-- `u(a) < u(b)` (40_register_arithmetic.md R105). -/
def lessUnsigned (a b : Word) : Bool := decide (a.toNat < b.toNat)

/-- 1 if the comparison holds, else 0 (40_register_arithmetic.md R104, R105). -/
def oneIf (c : Bool) : Word := if c then 0x00000001#32 else 0x00000000#32

/-- `v << n` (40_register_arithmetic.md R100). -/
def shiftLeft (v : Word) (n : Nat) : Word := v <<< n

/-- `v >>u n` (40_register_arithmetic.md R100). -/
def shiftRightLogical (v : Word) (n : Nat) : Word := v >>> n

/-- `v >>s n` (40_register_arithmetic.md R100). -/
def shiftRightArithmetic (v : Word) (n : Nat) : Word := v.sshiftRight n

end Sys2Proof.Machine
end

