-- ==== Sys2Proof/Machine/Branches.lean ====
section
/-! DEFINITION. The six conditional branches (43_branches.md R150 to R156): taken to `pc + imm_B`, or `pc + 4`; taken to a
target that is no multiple of 4 they raise InstructionAddressMisaligned. -/

namespace Sys2Proof.Machine

/-- BEQ: taken if the registers are equal (43_branches.md R151). -/
def execBeq (rs1 rs2 : Reg) (off : BitVec 13) (s : State) : Outcome :=
  .next (branchIf s (readReg s rs1 == readReg s rs2) off)

/-- BNE: taken if the registers differ (43_branches.md R152). -/
def execBne (rs1 rs2 : Reg) (off : BitVec 13) (s : State) : Outcome :=
  .next (branchIf s (readReg s rs1 != readReg s rs2) off)

/-- BLT: taken if `rs1` is less than `rs2` as signed numbers (43_branches.md R153). -/
def execBlt (rs1 rs2 : Reg) (off : BitVec 13) (s : State) : Outcome :=
  .next (branchIf s (lessSigned (readReg s rs1) (readReg s rs2)) off)

/-- BGE: taken if `rs1` is not less than `rs2` as signed numbers (43_branches.md R154). -/
def execBge (rs1 rs2 : Reg) (off : BitVec 13) (s : State) : Outcome :=
  .next (branchIf s (!lessSigned (readReg s rs1) (readReg s rs2)) off)

/-- BLTU: taken if `rs1` is less than `rs2` as unsigned numbers (43_branches.md R155). -/
def execBltu (rs1 rs2 : Reg) (off : BitVec 13) (s : State) : Outcome :=
  .next (branchIf s (lessUnsigned (readReg s rs1) (readReg s rs2)) off)

/-- BGEU: taken if `rs1` is not less than `rs2` as unsigned numbers (43_branches.md R156). -/
def execBgeu (rs1 rs2 : Reg) (off : BitVec 13) (s : State) : Outcome :=
  .next (branchIf s (!lessUnsigned (readReg s rs1) (readReg s rs2)) off)

end Sys2Proof.Machine
end

