-- ==== Sys2Proof/Machine/Jumps.lean ====
section
/-! DEFINITION. JAL and JALR (44_jumps.md R170 to R172). -/

namespace Sys2Proof.Machine

/-- JAL: link `pc + 4` into `rd` and jump to `pc + imm_J`; a misaligned target raises and links nothing
(44_jumps.md R170, R171). -/
def execJal (rd : Reg) (off : BitVec 21) (s : State) : Outcome :=
  .next (transfer s (jalTarget s off) (writeReg s rd (linkValue s)))

/-- JALR: link `pc + 4` into `rd` and jump to the sum of `rs1`, read before the link is written, and the immediate, with
bit 0 cleared; a target with bit 1 set raises and links nothing (44_jumps.md R170, R172). -/
def execJalr (rd rs1 : Reg) (imm : BitVec 12) (s : State) : Outcome :=
  .next (transfer s (jalrTarget s rs1 imm) (writeReg s rd (linkValue s)))

end Sys2Proof.Machine
end

