-- ==== Sys2Proof/Machine/LoadStore.lean ====
section
/-! DEFINITION. The five loads and three stores (45_loads_stores.md R180 to R188). A load with `rd = 0` still makes its
checks and its read (92_eei_decisions.md D22). -/

namespace Sys2Proof.Machine

/-- LB: the byte, sign-extended (45_loads_stores.md R181). -/
def execLb (rd rs1 : Reg) (imm : BitVec 12) (s : State) : Outcome :=
  .next (loadInto s .byte rd (loadAddr s rs1 imm) fun m a => sext (memRead1 m a))

/-- LBU: the byte, zero-extended (45_loads_stores.md R182). -/
def execLbu (rd rs1 : Reg) (imm : BitVec 12) (s : State) : Outcome :=
  .next (loadInto s .byte rd (loadAddr s rs1 imm) fun m a => zext (memRead1 m a))

/-- LH: the half-word, sign-extended (45_loads_stores.md R183). -/
def execLh (rd rs1 : Reg) (imm : BitVec 12) (s : State) : Outcome :=
  .next (loadInto s .half rd (loadAddr s rs1 imm) fun m a => sext (memRead2 m a))

/-- LHU: the half-word, zero-extended (45_loads_stores.md R184). -/
def execLhu (rd rs1 : Reg) (imm : BitVec 12) (s : State) : Outcome :=
  .next (loadInto s .half rd (loadAddr s rs1 imm) fun m a => zext (memRead2 m a))

/-- LW: the word (45_loads_stores.md R185). -/
def execLw (rd rs1 : Reg) (imm : BitVec 12) (s : State) : Outcome :=
  .next (loadInto s .word rd (loadAddr s rs1 imm) fun m a => memRead4 m a)

/-- SB: the least significant byte of `rs2` (45_loads_stores.md R186). -/
def execSb (rs2 rs1 : Reg) (imm : BitVec 12) (s : State) : Outcome :=
  .next (storeFrom s .byte (storeAddr s rs1 imm) (readReg s rs2))

/-- SH: the least significant half-word of `rs2` (45_loads_stores.md R187). -/
def execSh (rs2 rs1 : Reg) (imm : BitVec 12) (s : State) : Outcome :=
  .next (storeFrom s .half (storeAddr s rs1 imm) (readReg s rs2))

/-- SW: the value of `rs2` (90_conflicts.md C8) (45_loads_stores.md R188). -/
def execSw (rs2 rs1 : Reg) (imm : BitVec 12) (s : State) : Outcome :=
  .next (storeFrom s .word (storeAddr s rs1 imm) (readReg s rs2))

end Sys2Proof.Machine
end

