-- ==== Sys2Proof/Machine/RegArith.lean ====
section
/-! DEFINITION. The ten register-register instructions (40_register_arithmetic.md R100 to R110): `x[rd]` takes a value
computed from the sources as they were before, and `pc` advances. None of them raises anything. -/

namespace Sys2Proof.Machine

/-- ADD: the sum modulo `2^32`; overflow is ignored (40_register_arithmetic.md R101). -/
def execAdd (rd rs1 rs2 : Reg) (s : State) : Outcome :=
  .next (setAndAdvance s rd (readReg s rs1 + readReg s rs2))

/-- SUB: `rs1 - rs2` modulo `2^32`; overflow is ignored (40_register_arithmetic.md R102). -/
def execSub (rd rs1 rs2 : Reg) (s : State) : Outcome :=
  .next (setAndAdvance s rd (readReg s rs1 - readReg s rs2))

/-- SLL: left shift by the low five bits of `rs2` (40_register_arithmetic.md R103). -/
def execSll (rd rs1 rs2 : Reg) (s : State) : Outcome :=
  .next (setAndAdvance s rd (shiftLeft (readReg s rs1) (shiftAmount (readReg s rs2))))

/-- SLT: 1 if `rs1` is less than `rs2` as signed numbers, else 0 (40_register_arithmetic.md R104). -/
def execSlt (rd rs1 rs2 : Reg) (s : State) : Outcome :=
  .next (setAndAdvance s rd (oneIf (lessSigned (readReg s rs1) (readReg s rs2))))

/-- SLTU: 1 if `rs1` is less than `rs2` as unsigned numbers, else 0 (90_conflicts.md C7) (40_register_arithmetic.md R105). -/
def execSltu (rd rs1 rs2 : Reg) (s : State) : Outcome :=
  .next (setAndAdvance s rd (oneIf (lessUnsigned (readReg s rs1) (readReg s rs2))))

/-- XOR: bitwise exclusive or (40_register_arithmetic.md R106). -/
def execXor (rd rs1 rs2 : Reg) (s : State) : Outcome :=
  .next (setAndAdvance s rd (readReg s rs1 ^^^ readReg s rs2))

/-- SRL: logical right shift by the low five bits of `rs2` (40_register_arithmetic.md R107). -/
def execSrl (rd rs1 rs2 : Reg) (s : State) : Outcome :=
  .next (setAndAdvance s rd (shiftRightLogical (readReg s rs1) (shiftAmount (readReg s rs2))))

/-- SRA: arithmetic right shift by the low five bits of `rs2` (40_register_arithmetic.md R108). -/
def execSra (rd rs1 rs2 : Reg) (s : State) : Outcome :=
  .next (setAndAdvance s rd (shiftRightArithmetic (readReg s rs1) (shiftAmount (readReg s rs2))))

/-- OR: bitwise or (40_register_arithmetic.md R109). -/
def execOr (rd rs1 rs2 : Reg) (s : State) : Outcome :=
  .next (setAndAdvance s rd (readReg s rs1 ||| readReg s rs2))

/-- AND: bitwise and (40_register_arithmetic.md R110). -/
def execAnd (rd rs1 rs2 : Reg) (s : State) : Outcome :=
  .next (setAndAdvance s rd (readReg s rs1 &&& readReg s rs2))

end Sys2Proof.Machine
end

