-- ==== Sys2Proof/Machine/RegImm.lean ====
section
/-! DEFINITION. The nine register-immediate instructions (41_register_immediate.md R120 to R129): as the register-register
ones, with a sign-extended 12-bit immediate or a 5-bit shift amount for the second source. -/

namespace Sys2Proof.Machine

/-- ADDI: the sum with the sign-extended immediate modulo `2^32`; overflow is ignored (41_register_immediate.md R121). -/
def execAddi (rd rs1 : Reg) (imm : BitVec 12) (s : State) : Outcome :=
  .next (setAndAdvance s rd (readReg s rs1 + immI imm))

/-- SLTI: 1 if `rs1` is less than the immediate as signed numbers, else 0 (41_register_immediate.md R122). -/
def execSlti (rd rs1 : Reg) (imm : BitVec 12) (s : State) : Outcome :=
  .next (setAndAdvance s rd (oneIf (lessSigned (readReg s rs1) (immI imm))))

/-- SLTIU: 1 if `rs1` is less than the sign-extended immediate as unsigned numbers, else 0 (41_register_immediate.md R123). -/
def execSltiu (rd rs1 : Reg) (imm : BitVec 12) (s : State) : Outcome :=
  .next (setAndAdvance s rd (oneIf (lessUnsigned (readReg s rs1) (immI imm))))

/-- ANDI: bitwise and with the sign-extended immediate (41_register_immediate.md R124). -/
def execAndi (rd rs1 : Reg) (imm : BitVec 12) (s : State) : Outcome :=
  .next (setAndAdvance s rd (readReg s rs1 &&& immI imm))

/-- ORI: bitwise or with the sign-extended immediate (41_register_immediate.md R125). -/
def execOri (rd rs1 : Reg) (imm : BitVec 12) (s : State) : Outcome :=
  .next (setAndAdvance s rd (readReg s rs1 ||| immI imm))

/-- XORI: bitwise exclusive or with the sign-extended immediate (41_register_immediate.md R126). -/
def execXori (rd rs1 : Reg) (imm : BitVec 12) (s : State) : Outcome :=
  .next (setAndAdvance s rd (readReg s rs1 ^^^ immI imm))

/-- SLLI: left shift by the 5-bit constant `shamt` (41_register_immediate.md R127). -/
def execSlli (rd rs1 : Reg) (shamt : BitVec 5) (s : State) : Outcome :=
  .next (setAndAdvance s rd (shiftLeft (readReg s rs1) shamt.toNat))

/-- SRLI: logical right shift by the 5-bit constant `shamt` (41_register_immediate.md R128). -/
def execSrli (rd rs1 : Reg) (shamt : BitVec 5) (s : State) : Outcome :=
  .next (setAndAdvance s rd (shiftRightLogical (readReg s rs1) shamt.toNat))

/-- SRAI: arithmetic right shift by the 5-bit constant `shamt` (41_register_immediate.md R129). -/
def execSrai (rd rs1 : Reg) (shamt : BitVec 5) (s : State) : Outcome :=
  .next (setAndAdvance s rd (shiftRightArithmetic (readReg s rs1) shamt.toNat))

end Sys2Proof.Machine
end

