-- ==== Sys2Proof/Machine/System.lean ====
section
/-! DEFINITION. EBREAK, which on WISC-F25 halts the machine (46_system.md R200). -/

namespace Sys2Proof.Machine

/-- EBREAK: `halted <- 1`; `pc`, the registers and memory are unchanged (46_system.md R200). -/
def execEbreak (s : State) : Outcome :=
  .next (halt s)

end Sys2Proof.Machine
end

