-- ==== Sys2Proof/Machine/UpperImm.lean ====
section
/-! DEFINITION. LUI and AUIPC (42_upper_immediate.md R140 to R142). -/

namespace Sys2Proof.Machine

/-- LUI: the 20-bit field becomes bits 31 to 12, the low 12 bits are zero (42_upper_immediate.md R141). -/
def execLui (rd : Reg) (imm : BitVec 20) (s : State) : Outcome :=
  .next (setAndAdvance s rd (immU imm))

/-- AUIPC: the address of this instruction plus the U-immediate, modulo `2^32` (42_upper_immediate.md R142). -/
def execAuipc (rd : Reg) (imm : BitVec 20) (s : State) : Outcome :=
  .next (setAndAdvance s rd (s.pc + immU imm))

end Sys2Proof.Machine
end

