-- ==== Sys2Proof/Machine/Step.lean ====
section
/-! DEFINITION. The step rule (10_state.md R20) and the host's way to place the next instruction. -/

namespace Sys2Proof.Machine

/-- One step (10_state.md R20): what fetching and decoding at `pc` find, then the rule of the instruction. Every rule
assigns `pc` itself, so part 6 of R20 stands in the meanings. -/
def step (s : State) : Host.Outcome State Fault Refusal :=
  match fetchInstr s with
  | .stops f => .fault f
  | .refuses r => .refused r
  | .raises r => .next (raise s r)
  | .runs i => exec i s

/-- `s` with the instruction whose `nbits` low bits are `w` placed at `pc`, as the host places a word of `INIT_MEM`
(70_reset_and_hazards.md R242; log entry 6). -/
def State.withFetchWord (s : State) (nbits w : Nat) : State := placeWord s s.pc (tableWord nbits w)

end Sys2Proof.Machine
end

