-- ==== Sys2Proof/Safety.lean ====
section
/-! DEFINITION. The terms the claims use: running states, what a step leaves alone, the registers an instruction names, the
invariant of every reachable state, and safe runs. -/

namespace Sys2Proof.Machine

/-! ### Conditions of the machine (60_exceptions.md R223) -/

/-- `halted = 0` and `fault = none`. -/
abbrev Running (s : State) : Prop := s.halted = false ∧ s.fault = none

/-! ### What stays the same -/

/-- Every byte of memory reads as before. -/
def SameBytes (m m' : Memory) : Prop := ∀ c : Nat, Memory.get? m' c = Memory.get? m c

/-- Every byte outside the `n` bytes from `a` on reads as before. -/
def SameBytesOutside (m m' : Memory) (a n : Nat) : Prop :=
  ∀ c : Nat, c < a ∨ a + n ≤ c → Memory.get? m' c = Memory.get? m c

/-- The instruction view, the halt signal, the fault record and the platform are as before. -/
def SameControl (s t : State) : Prop :=
  t.imem = s.imem ∧ t.halted = s.halted ∧ t.fault = s.fault ∧ t.plat = s.plat

/-- Every register reads as before. -/
def SameRegs (s t : State) : Prop := ∀ r : Reg, readReg t r = readReg s r

/-- Register `rd` takes the value `v` unless it is `x0`; every other register reads as before (10_state.md R11). -/
def RegUpdate (s t : State) (rd : Reg) (v : Word) : Prop :=
  ∀ r : Reg, readReg t r = if r = rd ∧ rd ≠ 0#5 then v else readReg s r

/-- All but `pc` is as before. -/
def OnlyPcChanges (s t : State) : Prop := SameRegs s t ∧ SameBytes s.mem t.mem ∧ SameControl s t

/-- The effect of `raise r` (60_exceptions.md R212): the record is written and all else is as before. -/
def OnlyRaises (s t : State) (r : FaultRecord) : Prop :=
  t.fault = some r ∧ t.pc = s.pc ∧ SameRegs s t ∧ SameBytes s.mem t.mem ∧ t.imem = s.imem ∧ t.halted = s.halted
    ∧ t.plat = s.plat

/-- The outcome with its next state, if there is one, changed by `f`. -/
def mapNext (f : State → State) : Outcome → Outcome
  | .next s => .next (f s)
  | .fault r => .fault r
  | .refused r => .refused r

/-- The same machine on a platform that differs in `UNIFIED` alone (20_memory.md R40). -/
def withUnified (b : Bool) (s : State) : State := { s with plat := { s.plat with unified := b } }

/-! ### What an instruction names (10_state.md R13) -/

/-- The register named by the `rd` field, where the format has one (30_encoding.md R62). -/
def destReg : Instr → Option Reg
  | .add rd _ _ => some rd
  | .sub rd _ _ => some rd
  | .sll rd _ _ => some rd
  | .slt rd _ _ => some rd
  | .sltu rd _ _ => some rd
  | .xor rd _ _ => some rd
  | .srl rd _ _ => some rd
  | .sra rd _ _ => some rd
  | .or rd _ _ => some rd
  | .and rd _ _ => some rd
  | .addi rd _ _ => some rd
  | .slti rd _ _ => some rd
  | .sltiu rd _ _ => some rd
  | .andi rd _ _ => some rd
  | .ori rd _ _ => some rd
  | .xori rd _ _ => some rd
  | .slli rd _ _ => some rd
  | .srli rd _ _ => some rd
  | .srai rd _ _ => some rd
  | .lui rd _ => some rd
  | .auipc rd _ => some rd
  | .beq _ _ _ => none
  | .bne _ _ _ => none
  | .blt _ _ _ => none
  | .bge _ _ _ => none
  | .bltu _ _ _ => none
  | .bgeu _ _ _ => none
  | .jal rd _ => some rd
  | .jalr rd _ _ => some rd
  | .lb rd _ _ => some rd
  | .lbu rd _ _ => some rd
  | .lh rd _ _ => some rd
  | .lhu rd _ _ => some rd
  | .lw rd _ _ => some rd
  | .sb _ _ _ => none
  | .sh _ _ _ => none
  | .sw _ _ _ => none
  | .ebreak => none

/-- The instruction with `d` in its `rd` field, where the format has one. -/
def setDest (i : Instr) (d : Reg) : Instr :=
  match i with
  | .add _ rs1 rs2 => .add d rs1 rs2
  | .sub _ rs1 rs2 => .sub d rs1 rs2
  | .sll _ rs1 rs2 => .sll d rs1 rs2
  | .slt _ rs1 rs2 => .slt d rs1 rs2
  | .sltu _ rs1 rs2 => .sltu d rs1 rs2
  | .xor _ rs1 rs2 => .xor d rs1 rs2
  | .srl _ rs1 rs2 => .srl d rs1 rs2
  | .sra _ rs1 rs2 => .sra d rs1 rs2
  | .or _ rs1 rs2 => .or d rs1 rs2
  | .and _ rs1 rs2 => .and d rs1 rs2
  | .addi _ rs1 imm => .addi d rs1 imm
  | .slti _ rs1 imm => .slti d rs1 imm
  | .sltiu _ rs1 imm => .sltiu d rs1 imm
  | .andi _ rs1 imm => .andi d rs1 imm
  | .ori _ rs1 imm => .ori d rs1 imm
  | .xori _ rs1 imm => .xori d rs1 imm
  | .slli _ rs1 shamt => .slli d rs1 shamt
  | .srli _ rs1 shamt => .srli d rs1 shamt
  | .srai _ rs1 shamt => .srai d rs1 shamt
  | .lui _ imm => .lui d imm
  | .auipc _ imm => .auipc d imm
  | .beq rs1 rs2 off => .beq rs1 rs2 off
  | .bne rs1 rs2 off => .bne rs1 rs2 off
  | .blt rs1 rs2 off => .blt rs1 rs2 off
  | .bge rs1 rs2 off => .bge rs1 rs2 off
  | .bltu rs1 rs2 off => .bltu rs1 rs2 off
  | .bgeu rs1 rs2 off => .bgeu rs1 rs2 off
  | .jal _ off => .jal d off
  | .jalr _ rs1 imm => .jalr d rs1 imm
  | .lb _ rs1 imm => .lb d rs1 imm
  | .lbu _ rs1 imm => .lbu d rs1 imm
  | .lh _ rs1 imm => .lh d rs1 imm
  | .lhu _ rs1 imm => .lhu d rs1 imm
  | .lw _ rs1 imm => .lw d rs1 imm
  | .sb rs2 rs1 imm => .sb rs2 rs1 imm
  | .sh rs2 rs1 imm => .sh rs2 rs1 imm
  | .sw rs2 rs1 imm => .sw rs2 rs1 imm
  | .ebreak => .ebreak

/-- The registers named by the `rs1` and `rs2` fields, where the format has them (30_encoding.md R62). -/
def sourceRegs : Instr → List Reg
  | .add _ rs1 rs2 => [rs1, rs2]
  | .sub _ rs1 rs2 => [rs1, rs2]
  | .sll _ rs1 rs2 => [rs1, rs2]
  | .slt _ rs1 rs2 => [rs1, rs2]
  | .sltu _ rs1 rs2 => [rs1, rs2]
  | .xor _ rs1 rs2 => [rs1, rs2]
  | .srl _ rs1 rs2 => [rs1, rs2]
  | .sra _ rs1 rs2 => [rs1, rs2]
  | .or _ rs1 rs2 => [rs1, rs2]
  | .and _ rs1 rs2 => [rs1, rs2]
  | .addi _ rs1 _ => [rs1]
  | .slti _ rs1 _ => [rs1]
  | .sltiu _ rs1 _ => [rs1]
  | .andi _ rs1 _ => [rs1]
  | .ori _ rs1 _ => [rs1]
  | .xori _ rs1 _ => [rs1]
  | .slli _ rs1 _ => [rs1]
  | .srli _ rs1 _ => [rs1]
  | .srai _ rs1 _ => [rs1]
  | .lui _ _ => []
  | .auipc _ _ => []
  | .beq rs1 rs2 _ => [rs1, rs2]
  | .bne rs1 rs2 _ => [rs1, rs2]
  | .blt rs1 rs2 _ => [rs1, rs2]
  | .bge rs1 rs2 _ => [rs1, rs2]
  | .bltu rs1 rs2 _ => [rs1, rs2]
  | .bgeu rs1 rs2 _ => [rs1, rs2]
  | .jal _ _ => []
  | .jalr _ rs1 _ => [rs1]
  | .lb _ rs1 _ => [rs1]
  | .lbu _ rs1 _ => [rs1]
  | .lh _ rs1 _ => [rs1]
  | .lhu _ rs1 _ => [rs1]
  | .lw _ rs1 _ => [rs1]
  | .sb rs2 rs1 _ => [rs2, rs1]
  | .sh rs2 rs1 _ => [rs2, rs1]
  | .sw rs2 rs1 _ => [rs2, rs1]
  | .ebreak => []

/-- LB, LBU, LH, LHU, LW (20_memory.md R31). -/
def isLoad : Instr → Bool
  | .add _ _ _ => false
  | .sub _ _ _ => false
  | .sll _ _ _ => false
  | .slt _ _ _ => false
  | .sltu _ _ _ => false
  | .xor _ _ _ => false
  | .srl _ _ _ => false
  | .sra _ _ _ => false
  | .or _ _ _ => false
  | .and _ _ _ => false
  | .addi _ _ _ => false
  | .slti _ _ _ => false
  | .sltiu _ _ _ => false
  | .andi _ _ _ => false
  | .ori _ _ _ => false
  | .xori _ _ _ => false
  | .slli _ _ _ => false
  | .srli _ _ _ => false
  | .srai _ _ _ => false
  | .lui _ _ => false
  | .auipc _ _ => false
  | .beq _ _ _ => false
  | .bne _ _ _ => false
  | .blt _ _ _ => false
  | .bge _ _ _ => false
  | .bltu _ _ _ => false
  | .bgeu _ _ _ => false
  | .jal _ _ => false
  | .jalr _ _ _ => false
  | .lb _ _ _ => true
  | .lbu _ _ _ => true
  | .lh _ _ _ => true
  | .lhu _ _ _ => true
  | .lw _ _ _ => true
  | .sb _ _ _ => false
  | .sh _ _ _ => false
  | .sw _ _ _ => false
  | .ebreak => false

/-- SB, SH, SW (20_memory.md R31). -/
def isStore : Instr → Bool
  | .add _ _ _ => false
  | .sub _ _ _ => false
  | .sll _ _ _ => false
  | .slt _ _ _ => false
  | .sltu _ _ _ => false
  | .xor _ _ _ => false
  | .srl _ _ _ => false
  | .sra _ _ _ => false
  | .or _ _ _ => false
  | .and _ _ _ => false
  | .addi _ _ _ => false
  | .slti _ _ _ => false
  | .sltiu _ _ _ => false
  | .andi _ _ _ => false
  | .ori _ _ _ => false
  | .xori _ _ _ => false
  | .slli _ _ _ => false
  | .srli _ _ _ => false
  | .srai _ _ _ => false
  | .lui _ _ => false
  | .auipc _ _ => false
  | .beq _ _ _ => false
  | .bne _ _ _ => false
  | .blt _ _ _ => false
  | .bge _ _ _ => false
  | .bltu _ _ _ => false
  | .bgeu _ _ _ => false
  | .jal _ _ => false
  | .jalr _ _ _ => false
  | .lb _ _ _ => false
  | .lbu _ _ _ => false
  | .lh _ _ _ => false
  | .lhu _ _ _ => false
  | .lw _ _ _ => false
  | .sb _ _ _ => true
  | .sh _ _ _ => true
  | .sw _ _ _ => true
  | .ebreak => false

/-- The target of a taken branch or a jump, and nothing for every other instruction and for a branch that is not taken
(43_branches.md R150, 44_jumps.md R171, R172). -/
def transferTarget (i : Instr) (s : State) : Option Word :=
  match i with
  | .add _ _ _ => none
  | .sub _ _ _ => none
  | .sll _ _ _ => none
  | .slt _ _ _ => none
  | .sltu _ _ _ => none
  | .xor _ _ _ => none
  | .srl _ _ _ => none
  | .sra _ _ _ => none
  | .or _ _ _ => none
  | .and _ _ _ => none
  | .addi _ _ _ => none
  | .slti _ _ _ => none
  | .sltiu _ _ _ => none
  | .andi _ _ _ => none
  | .ori _ _ _ => none
  | .xori _ _ _ => none
  | .slli _ _ _ => none
  | .srli _ _ _ => none
  | .srai _ _ _ => none
  | .lui _ _ => none
  | .auipc _ _ => none
  | .beq rs1 rs2 off => if readReg s rs1 = readReg s rs2 then some (branchTarget s off) else none
  | .bne rs1 rs2 off => if readReg s rs1 ≠ readReg s rs2 then some (branchTarget s off) else none
  | .blt rs1 rs2 off => if (readReg s rs1).toInt < (readReg s rs2).toInt then some (branchTarget s off) else none
  | .bge rs1 rs2 off => if (readReg s rs2).toInt ≤ (readReg s rs1).toInt then some (branchTarget s off) else none
  | .bltu rs1 rs2 off => if (readReg s rs1).toNat < (readReg s rs2).toNat then some (branchTarget s off) else none
  | .bgeu rs1 rs2 off => if (readReg s rs2).toNat ≤ (readReg s rs1).toNat then some (branchTarget s off) else none
  | .jal _ off => some (jalTarget s off)
  | .jalr _ rs1 imm => some (jalrTarget s rs1 imm)
  | .lb _ _ _ => none
  | .lbu _ _ _ => none
  | .lh _ _ _ => none
  | .lhu _ _ _ => none
  | .lw _ _ _ => none
  | .sb _ _ _ => none
  | .sh _ _ _ => none
  | .sw _ _ _ => none
  | .ebreak => none

/-- The address a load reads at and the number of bytes it reads from there on; no byte for every other instruction
(45_loads_stores.md R180, 20_memory.md R31). -/
def loadedBytes (i : Instr) (s : State) : Word × Nat :=
  match i with
  | .add _ _ _ => (0x00000000#32, 0)
  | .sub _ _ _ => (0x00000000#32, 0)
  | .sll _ _ _ => (0x00000000#32, 0)
  | .slt _ _ _ => (0x00000000#32, 0)
  | .sltu _ _ _ => (0x00000000#32, 0)
  | .xor _ _ _ => (0x00000000#32, 0)
  | .srl _ _ _ => (0x00000000#32, 0)
  | .sra _ _ _ => (0x00000000#32, 0)
  | .or _ _ _ => (0x00000000#32, 0)
  | .and _ _ _ => (0x00000000#32, 0)
  | .addi _ _ _ => (0x00000000#32, 0)
  | .slti _ _ _ => (0x00000000#32, 0)
  | .sltiu _ _ _ => (0x00000000#32, 0)
  | .andi _ _ _ => (0x00000000#32, 0)
  | .ori _ _ _ => (0x00000000#32, 0)
  | .xori _ _ _ => (0x00000000#32, 0)
  | .slli _ _ _ => (0x00000000#32, 0)
  | .srli _ _ _ => (0x00000000#32, 0)
  | .srai _ _ _ => (0x00000000#32, 0)
  | .lui _ _ => (0x00000000#32, 0)
  | .auipc _ _ => (0x00000000#32, 0)
  | .beq _ _ _ => (0x00000000#32, 0)
  | .bne _ _ _ => (0x00000000#32, 0)
  | .blt _ _ _ => (0x00000000#32, 0)
  | .bge _ _ _ => (0x00000000#32, 0)
  | .bltu _ _ _ => (0x00000000#32, 0)
  | .bgeu _ _ _ => (0x00000000#32, 0)
  | .jal _ _ => (0x00000000#32, 0)
  | .jalr _ _ _ => (0x00000000#32, 0)
  | .lb _ rs1 imm => (loadAddr s rs1 imm, 1)
  | .lbu _ rs1 imm => (loadAddr s rs1 imm, 1)
  | .lh _ rs1 imm => (loadAddr s rs1 imm, 2)
  | .lhu _ rs1 imm => (loadAddr s rs1 imm, 2)
  | .lw _ rs1 imm => (loadAddr s rs1 imm, 4)
  | .sb _ _ _ => (0x00000000#32, 0)
  | .sh _ _ _ => (0x00000000#32, 0)
  | .sw _ _ _ => (0x00000000#32, 0)
  | .ebreak => (0x00000000#32, 0)

/-- A control transfer's record: its own target, which is no multiple of 4 (60_exceptions.md R210). -/
def targetMayRaise (i : Instr) (s : State) (r : FaultRecord) : Prop :=
  ∃ t, transferTarget i s = some t ∧ t.toNat % 4 ≠ 0 ∧ r = .instructionAddressMisaligned t

/-- The records of a load of `n` bytes at `a`: `a` is no multiple of `n`, or it is one and a byte of the access is not in
`DMEM` (60_exceptions.md R211, R214). -/
def loadMayRaise (s : State) (a : Word) (n : Nat) (r : FaultRecord) : Prop :=
  (a.toNat % n ≠ 0 ∧ r = .loadAddressMisaligned a) ∨
  (a.toNat % n = 0 ∧ (∃ k < n, memberAddr s.plat.dmemSet (a.toNat + k) = false) ∧ r = .loadAccessFault a)

/-- The records of a store of `n` bytes at `a`: `a` is no multiple of `n`, or it is one and a byte of the access is not in
`DMEM` (60_exceptions.md R211, R214). -/
def storeMayRaise (s : State) (a : Word) (n : Nat) (r : FaultRecord) : Prop :=
  (a.toNat % n ≠ 0 ∧ r = .storeAddressMisaligned a) ∨
  (a.toNat % n = 0 ∧ (∃ k < n, memberAddr s.plat.dmemSet (a.toNat + k) = false) ∧ r = .storeAccessFault a)

/-- The records an instruction can raise in `s` once it is decoded (60_exceptions.md R211). -/
def mayRaise (i : Instr) (s : State) (r : FaultRecord) : Prop :=
  match i with
  | .add _ _ _ => False
  | .sub _ _ _ => False
  | .sll _ _ _ => False
  | .slt _ _ _ => False
  | .sltu _ _ _ => False
  | .xor _ _ _ => False
  | .srl _ _ _ => False
  | .sra _ _ _ => False
  | .or _ _ _ => False
  | .and _ _ _ => False
  | .addi _ _ _ => False
  | .slti _ _ _ => False
  | .sltiu _ _ _ => False
  | .andi _ _ _ => False
  | .ori _ _ _ => False
  | .xori _ _ _ => False
  | .slli _ _ _ => False
  | .srli _ _ _ => False
  | .srai _ _ _ => False
  | .lui _ _ => False
  | .auipc _ _ => False
  | .beq _ _ _ => targetMayRaise i s r
  | .bne _ _ _ => targetMayRaise i s r
  | .blt _ _ _ => targetMayRaise i s r
  | .bge _ _ _ => targetMayRaise i s r
  | .bltu _ _ _ => targetMayRaise i s r
  | .bgeu _ _ _ => targetMayRaise i s r
  | .jal _ _ => targetMayRaise i s r
  | .jalr _ _ _ => targetMayRaise i s r
  | .lb _ rs1 imm => loadMayRaise s (loadAddr s rs1 imm) 1 r
  | .lbu _ rs1 imm => loadMayRaise s (loadAddr s rs1 imm) 1 r
  | .lh _ rs1 imm => loadMayRaise s (loadAddr s rs1 imm) 2 r
  | .lhu _ rs1 imm => loadMayRaise s (loadAddr s rs1 imm) 2 r
  | .lw _ rs1 imm => loadMayRaise s (loadAddr s rs1 imm) 4 r
  | .sb _ rs1 imm => storeMayRaise s (storeAddr s rs1 imm) 1 r
  | .sh _ rs1 imm => storeMayRaise s (storeAddr s rs1 imm) 2 r
  | .sw _ rs1 imm => storeMayRaise s (storeAddr s rs1 imm) 4 r
  | .ebreak => False

/-! ### The invariant of every reachable state -/

/-- A recorded fault is one its cause allows, and a fault of the fetch or the decoding names the present `pc`
(60_exceptions.md R211, R212). -/
def FaultFits (s : State) : FaultRecord → Prop
  | .instructionAddressMisaligned t => t.toNat % 4 ≠ 0
  | .illegalInstruction p w => p = s.pc ∧ ∃ e, decode w = .error e
  | .loadAddressMisaligned a => a.toNat % 4 ≠ 0
  | .storeAddressMisaligned a => a.toNat % 4 ≠ 0
  | .fetchAccessFault p => p = s.pc ∧ allIn s.plat.imemSet p 4 = false
  | .loadAccessFault a => ∃ w, alignedFor w a = true ∧ allIn s.plat.dmemSet a (widthBytes w) = false
  | .storeAccessFault a => ∃ w, alignedFor w a = true ∧ allIn s.plat.dmemSet a (widthBytes w) = false

/-- What holds in every state of a run: `pc` is a multiple of 4 (10_state.md R16), both views of memory and the parameters
have their form, the machine is not both halted and faulted (60_exceptions.md R223), and a recorded fault fits. -/
structure Inv (s : State) : Prop where
  pcAligned : s.pc.toNat % 4 = 0
  memForm : Memory.wf s.mem
  imemForm : Memory.wf s.imem
  platForm : Platform.wf s.plat
  notBoth : ¬(s.halted = true ∧ s.fault ≠ none)
  faultFits : ∀ r, s.fault = some r → FaultFits s r

/-! ### Safe runs (60_exceptions.md R212: a proof about a program should show that it raises no fault) -/

/-- For `k` steps, or until it halts, the machine steps on and records no fault. -/
def SafeRun : Nat → State → Prop
  | 0, s => s.fault = none
  | k + 1, s => s.fault = none ∧ (s.halted = true ∨ ∃ t, step s = .next t ∧ SafeRun k t)

end Sys2Proof.Machine
end

