-- ==== Sys2Proof/Certificates/Slice0/Obligations.lean ====
section
/-! DEFINITION. The statements for the provers. The values an instruction writes are described here by arithmetic on
natural numbers and integers and by single bits, as 00_scope.md R8 and 40_register_arithmetic.md R100 describe them, not
by the operations of the model. -/

namespace Sys2Proof.Claim

open Sys2Proof.Machine

/-! ### Values (00_scope.md R8, 40_register_arithmetic.md R100) -/

/-- `s(v)`: `u(v)` if `v[31] = 0`, else `u(v) - 2^32`. -/
def signed (v : Word) : Int := if v.getLsbD 31 = true then (v.toNat : Int) - 4294967296 else v.toNat

/-- `v` is the sum modulo `2^32`. -/
def IsSum (a b v : Word) : Prop := v.toNat = (a.toNat + b.toNat) % 4294967296

/-- `v` is the difference modulo `2^32`. -/
def IsDifference (a b v : Word) : Prop := v.toNat = (a.toNat + 4294967296 - b.toNat) % 4294967296

/-- `v` is 1 if `s(a) < s(b)`, else 0. -/
def IsLessSigned (a b v : Word) : Prop := v.toNat = if signed a < signed b then 1 else 0

/-- `v` is 1 if `u(a) < u(b)`, else 0. -/
def IsLessUnsigned (a b v : Word) : Prop := v.toNat = if a.toNat < b.toNat then 1 else 0

/-- `v` has at each place the bit `f` gives of the bits of `a` and `b` there. -/
def IsBitwise (f : Bool → Bool → Bool) (a b v : Word) : Prop :=
  ∀ k < 32, v.getLsbD k = f (a.getLsbD k) (b.getLsbD k)

/-- `v` is `a << n`. -/
def IsShiftLeft (a : Word) (n : Nat) (v : Word) : Prop :=
  ∀ k < 32, v.getLsbD k = if n ≤ k then a.getLsbD (k - n) else false

/-- `v` is `a >>u n`. -/
def IsShiftRightLogical (a : Word) (n : Nat) (v : Word) : Prop :=
  ∀ k < 32, v.getLsbD k = if k + n ≤ 31 then a.getLsbD (k + n) else false

/-- `v` is `a >>s n`. -/
def IsShiftRightArithmetic (a : Word) (n : Nat) (v : Word) : Prop :=
  ∀ k < 32, v.getLsbD k = if k + n ≤ 31 then a.getLsbD (k + n) else a.getLsbD 31

/-- `v` is `sext_n(imm)`. -/
def IsSignExtended {n : Nat} (imm : BitVec n) (v : Word) : Prop :=
  ∀ k < 32, v.getLsbD k = imm.getLsbD (if k < n then k else n - 1)

/-- `v` is `imm_U`: the 20-bit field above twelve zeros. -/
def IsUpper (imm : BitVec 20) (v : Word) : Prop := v.toNat = imm.toNat * 4096

/-- `v` is what `n` bytes from `a` on hold, least significant first, sign-extended or zero-extended. -/
def IsLoaded (m : Memory) (a : Word) (n : Nat) (signExtends : Bool) (v : Word) : Prop :=
  ∀ k < 32, v.getLsbD k =
    if k < 8 * n then (byteAt m (a + BitVec.ofNat 32 (k / 8))).getLsbD (k % 8)
    else signExtends && (byteAt m (a + BitVec.ofNat 32 (n - 1))).getLsbD 7

/-! ### Completion: the instruction answers a next state, and what that state is -/

/-- The instruction completes: `rd` takes a value described by `P`, `pc` advances, all else is as before. -/
def SetsRegister (i : Instr) (s : State) (rd : Reg) (P : Word → Prop) : Prop :=
  ∃ v t, P v ∧ exec i s = .next t ∧ t.pc = s.pc + 4#32 ∧ RegUpdate s t rd v ∧ SameBytes s.mem t.mem ∧ SameControl s t

/-- The instruction completes: `pc` takes the value `p`, all else is as before. -/
def SetsPc (i : Instr) (s : State) (p : Word) : Prop := ∃ t, exec i s = .next t ∧ t.pc = p ∧ OnlyPcChanges s t

/-- The instruction raises the record `r`, and all else is as before. -/
def Raises (i : Instr) (s : State) (r : FaultRecord) : Prop := ∃ t, exec i s = .next t ∧ OnlyRaises s t r

/-- The instruction links and jumps: `rd` takes `pc + 4`, `pc` takes `p`, all else is as before. -/
def LinksAndJumps (i : Instr) (s : State) (rd : Reg) (p : Word) : Prop :=
  ∃ v t, IsSum s.pc 4#32 v ∧ exec i s = .next t ∧ t.pc = p ∧ RegUpdate s t rd v ∧ SameBytes s.mem t.mem ∧ SameControl s t

/-- The instruction completes: the low `n` bytes of `v` lie from `a` on, least significant first, every other byte, the
registers and all else are as before, and `pc` advances. -/
def StoresBytes (i : Instr) (s : State) (a : Word) (n : Nat) (v : Word) : Prop :=
  ∃ t, exec i s = .next t ∧ t.pc = s.pc + 4#32 ∧ SameRegs s t ∧
    (∀ k < n, Memory.get? t.mem (a.toNat + k) = some (v.extractLsb' (8 * k) 8)) ∧
    SameBytesOutside s.mem t.mem a.toNat n ∧ SameControl s t

/-- All `n` bytes from `a` on lie in the set. -/
def AllMember (rs : AddrSet) (a : Word) (n : Nat) : Prop := ∀ k < n, memberAddr rs (a.toNat + k) = true

/-! ### One form a family: its encoding and its rule -/

/-- R-type with opcode `0b0110011` (30_encoding.md R63): the word decodes to the instruction, which sets `rd` to a value
described by `P` of the two sources. -/
def RegisterRule (f7 : BitVec 7) (f3 : BitVec 3) (mk : Reg → Reg → Reg → Instr) (P : Word → Word → Word → Prop) : Prop :=
  ∀ (rd rs1 rs2 : Reg) (s : State),
    decode (f7 ++ rs2 ++ rs1 ++ f3 ++ rd ++ 0b0110011#7) = .ok (mk rd rs1 rs2) ∧
    SetsRegister (mk rd rs1 rs2) s rd (P (readReg s rs1) (readReg s rs2))

/-- I-type with opcode `0b0010011` (30_encoding.md R64): the word decodes to the instruction, which sets `rd` to a value
described by `P` of the source and the sign-extended immediate. -/
def ImmediateRule (f3 : BitVec 3) (mk : Reg → Reg → BitVec 12 → Instr) (P : Word → Word → Word → Prop) : Prop :=
  ∀ (rd rs1 : Reg) (imm : BitVec 12) (s : State) (b : Word), IsSignExtended imm b →
    decode (imm ++ rs1 ++ f3 ++ rd ++ 0b0010011#7) = .ok (mk rd rs1 imm) ∧
    SetsRegister (mk rd rs1 imm) s rd (P (readReg s rs1) b)

/-- The shift form of the I-type (30_encoding.md R74): the word decodes to the instruction, which sets `rd` to a value
described by `P` of the source and the shift amount. -/
def ShiftRule (f7 : BitVec 7) (f3 : BitVec 3) (mk : Reg → Reg → BitVec 5 → Instr) (P : Word → Nat → Word → Prop) : Prop :=
  ∀ (rd rs1 : Reg) (shamt : BitVec 5) (s : State),
    decode (f7 ++ shamt ++ rs1 ++ f3 ++ rd ++ 0b0010011#7) = .ok (mk rd rs1 shamt) ∧
    SetsRegister (mk rd rs1 shamt) s rd (P (readReg s rs1) shamt.toNat)

/-- No word of the shift form with this `funct3` and another upper field decodes. -/
def OtherShiftsUndefined (f3 : BitVec 3) (allowed : List (BitVec 7)) : Prop :=
  ∀ (f7 : BitVec 7) (shamt rs1 rd : BitVec 5), f7 ∉ allowed →
    ∃ e, decode (f7 ++ shamt ++ rs1 ++ f3 ++ rd ++ 0b0010011#7) = .error e

/-- B-type with opcode `0b1100011` (30_encoding.md R66): an even offset's word decodes to the instruction. -/
def BranchEncoding (f3 : BitVec 3) (mk : Reg → Reg → BitVec 13 → Instr) : Prop :=
  ∀ (rs1 rs2 : Reg) (off : BitVec 13), off.getLsbD 0 = false →
    decode (off.extractLsb' 12 1 ++ off.extractLsb' 5 6 ++ rs2 ++ rs1 ++ f3 ++ off.extractLsb' 1 4 ++
      off.extractLsb' 11 1 ++ 0b1100011#7) = .ok (mk rs1 rs2 off)

/-- A branch goes to `pc + imm_B` if its condition is true and the target is a multiple of 4, and to `pc + 4` if its
condition is false, whatever the target (43_branches.md R150). -/
def BranchGoes (mk : Reg → Reg → BitVec 13 → Instr) (cond : Word → Word → Prop) : Prop :=
  ∀ (rs1 rs2 : Reg) (off : BitVec 13) (s : State) (b target : Word), IsSignExtended off b → IsSum s.pc b target →
    (cond (readReg s rs1) (readReg s rs2) → target.toNat % 4 = 0 → SetsPc (mk rs1 rs2 off) s target) ∧
    (¬cond (readReg s rs1) (readReg s rs2) → SetsPc (mk rs1 rs2 off) s (s.pc + 4#32))

/-- A branch generates the exception if its condition is true and the target is no multiple of 4. -/
def BranchExcepts (mk : Reg → Reg → BitVec 13 → Instr) (cond : Word → Word → Prop) : Prop :=
  ∀ (rs1 rs2 : Reg) (off : BitVec 13) (s : State) (b target : Word), IsSignExtended off b → IsSum s.pc b target →
    cond (readReg s rs1) (readReg s rs2) → target.toNat % 4 ≠ 0 →
    ∃ t, exec (mk rs1 rs2 off) s = .next t ∧ t.fault = some (.instructionAddressMisaligned target)

/-- The rule of one branch: encoding, both ways, exception. -/
def BranchRule (f3 : BitVec 3) (mk : Reg → Reg → BitVec 13 → Instr) (cond : Word → Word → Prop) : Prop :=
  BranchEncoding f3 mk ∧ BranchGoes mk cond ∧ BranchExcepts mk cond

/-- I-type with opcode `0b0000011`: a load of `n` bytes at an aligned address whose bytes lie in `DMEM` sets `rd`. -/
def LoadRule (f3 : BitVec 3) (mk : Reg → Reg → BitVec 12 → Instr) (n : Nat) (signExtends : Bool) : Prop :=
  ∀ (rd rs1 : Reg) (imm : BitVec 12) (s : State),
    decode (imm ++ rs1 ++ f3 ++ rd ++ 0b0000011#7) = .ok (mk rd rs1 imm) ∧
    ((loadAddr s rs1 imm).toNat % n = 0 → AllMember s.plat.dmemSet (loadAddr s rs1 imm) n →
      SetsRegister (mk rd rs1 imm) s rd (IsLoaded s.mem (loadAddr s rs1 imm) n signExtends))

/-- The two faults of a load, misaligned first. -/
def LoadFaults (mk : Reg → Reg → BitVec 12 → Instr) (n : Nat) : Prop :=
  ∀ (rd rs1 : Reg) (imm : BitVec 12) (s : State),
    ((loadAddr s rs1 imm).toNat % n ≠ 0 → Raises (mk rd rs1 imm) s (.loadAddressMisaligned (loadAddr s rs1 imm))) ∧
    ((loadAddr s rs1 imm).toNat % n = 0 → ¬AllMember s.plat.dmemSet (loadAddr s rs1 imm) n →
      Raises (mk rd rs1 imm) s (.loadAccessFault (loadAddr s rs1 imm)))

/-- S-type with opcode `0b0100011`: a store of `n` bytes at an aligned address whose bytes lie in `DMEM`. -/
def StoreRule (f3 : BitVec 3) (mk : Reg → Reg → BitVec 12 → Instr) (n : Nat) : Prop :=
  ∀ (rs2 rs1 : Reg) (imm : BitVec 12) (s : State),
    decode (imm.extractLsb' 5 7 ++ rs2 ++ rs1 ++ f3 ++ imm.extractLsb' 0 5 ++ 0b0100011#7) = .ok (mk rs2 rs1 imm) ∧
    ((storeAddr s rs1 imm).toNat % n = 0 → AllMember s.plat.dmemSet (storeAddr s rs1 imm) n →
      StoresBytes (mk rs2 rs1 imm) s (storeAddr s rs1 imm) n (readReg s rs2))

/-- The two faults of a store, misaligned first. -/
def StoreFaults (mk : Reg → Reg → BitVec 12 → Instr) (n : Nat) : Prop :=
  ∀ (rs2 rs1 : Reg) (imm : BitVec 12) (s : State),
    ((storeAddr s rs1 imm).toNat % n ≠ 0 → Raises (mk rs2 rs1 imm) s (.storeAddressMisaligned (storeAddr s rs1 imm))) ∧
    ((storeAddr s rs1 imm).toNat % n = 0 → ¬AllMember s.plat.dmemSet (storeAddr s rs1 imm) n →
      Raises (mk rs2 rs1 imm) s (.storeAccessFault (storeAddr s rs1 imm)))

end Sys2Proof.Claim

section Register

open Sys2Proof Sys2Proof.Machine Sys2Proof.Claim

/-- 40_register_arithmetic.md R101, R102: ADD and SUB, encoding, result, frame. -/
def Obligations.AddSubRegisters : Prop :=
  RegisterRule 0b0000000#7 0b000#3 .add IsSum ∧ RegisterRule 0b0100000#7 0b000#3 .sub IsDifference

/-- 40_register_arithmetic.md R103, R107, R108: SLL, SRL and SRA, by the low five bits of `rs2`. -/
def Obligations.ShiftRegisters : Prop :=
  RegisterRule 0b0000000#7 0b001#3 .sll (fun a b => IsShiftLeft a (b.toNat % 32)) ∧
  RegisterRule 0b0000000#7 0b101#3 .srl (fun a b => IsShiftRightLogical a (b.toNat % 32)) ∧
  RegisterRule 0b0100000#7 0b101#3 .sra (fun a b => IsShiftRightArithmetic a (b.toNat % 32))

/-- 40_register_arithmetic.md R104, R105: SLT and SLTU. -/
def Obligations.CompareRegisters : Prop :=
  RegisterRule 0b0000000#7 0b010#3 .slt IsLessSigned ∧ RegisterRule 0b0000000#7 0b011#3 .sltu IsLessUnsigned

/-- 40_register_arithmetic.md R106, R109, R110: XOR, OR and AND. -/
def Obligations.BitwiseRegisters : Prop :=
  RegisterRule 0b0000000#7 0b100#3 .xor (IsBitwise Bool.xor) ∧
  RegisterRule 0b0000000#7 0b110#3 .or (IsBitwise (· || ·)) ∧
  RegisterRule 0b0000000#7 0b111#3 .and (IsBitwise (· && ·))

/-- 40_register_arithmetic.md R108, corner case: SRA is the floor of `s(rs1) / 2^n`. -/
def Obligations.ArithmeticShiftIsFloorDivision : Prop :=
  ∀ (rd rs1 rs2 : Reg) (s : State), rd ≠ 0#5 →
    ∃ t, exec (.sra rd rs1 rs2) s = .next t ∧
      signed (readReg t rd) = Int.fdiv (signed (readReg s rs1)) (2 ^ ((readReg s rs2).toNat % 32))

/-- 41_register_immediate.md, ADDI. The opcode in the decode clause is one of the PRESUMED encodings of log entry 14 (G1, C1). -/
def Obligations.AddImmediate : Prop := ImmediateRule 0b000#3 .addi IsSum

/-- 41_register_immediate.md, SLTI and SLTIU, whose immediate is sign-extended first. The opcode of both and the `funct3` of
SLTIU in the decode clauses are PRESUMED encodings, log entry 14 (G1, G3, C1, C3). -/
def Obligations.CompareImmediates : Prop :=
  ImmediateRule 0b010#3 .slti IsLessSigned ∧ ImmediateRule 0b011#3 .sltiu IsLessUnsigned

/-- 41_register_immediate.md, ANDI, ORI and XORI. The opcode in the decode clauses is one of the PRESUMED encodings of log
entry 14 (G1, C1). -/
def Obligations.BitwiseImmediates : Prop :=
  ImmediateRule 0b111#3 .andi (IsBitwise (· && ·)) ∧
  ImmediateRule 0b110#3 .ori (IsBitwise (· || ·)) ∧
  ImmediateRule 0b100#3 .xori (IsBitwise Bool.xor)

/-- 41_register_immediate.md, SLLI, SRLI and SRAI, and that another upper field is undefined. The opcode of the three and the
`funct3` of SRLI and SRAI in the decode clauses are PRESUMED encodings, log entry 14 (G1, G2, C1, C2). -/
def Obligations.ShiftImmediates : Prop :=
  ShiftRule 0b0000000#7 0b001#3 .slli IsShiftLeft ∧ ShiftRule 0b0000000#7 0b101#3 .srli IsShiftRightLogical ∧
  ShiftRule 0b0100000#7 0b101#3 .srai IsShiftRightArithmetic ∧
  OtherShiftsUndefined 0b001#3 [0b0000000#7] ∧ OtherShiftsUndefined 0b101#3 [0b0000000#7, 0b0100000#7]

/-- 42_upper_immediate.md R140, R141, R142: LUI and AUIPC. -/
def Obligations.UpperImmediates : Prop :=
  ∀ (rd : Reg) (imm : BitVec 20) (s : State) (b : Word), IsUpper imm b →
    decode (imm ++ rd ++ 0b0110111#7) = .ok (.lui rd imm) ∧ SetsRegister (.lui rd imm) s rd (fun v => v = b) ∧
    decode (imm ++ rd ++ 0b0010111#7) = .ok (.auipc rd imm) ∧ SetsRegister (.auipc rd imm) s rd (IsSum s.pc b)

/-- 42_upper_immediate.md section of LUI, a derived remark of the spec: LUI of `((V + 0x800) >> 12) & 0xFFFFF` and then
ADDI of `V[11:0]` leave any constant `V` in `rd`. -/
def Obligations.LuiThenAddiBuildsConstant : Prop :=
  ∀ (c : Word) (rd : Reg) (s : State), rd ≠ 0#5 →
    ∃ t u, exec (.lui rd ((c + 0x800#32).extractLsb' 12 20)) s = .next t ∧
      exec (.addi rd rd (c.extractLsb' 0 12)) t = .next u ∧ readReg u rd = c ∧
      (∀ r, r ≠ rd → readReg u r = readReg s r)

/-- 10_state.md R11: `x0` reads zero in every state. -/
def Obligations.ZeroRegisterReadsZero : Prop :=
  ∀ (s : State) (v : Word), readReg s 0#5 = 0x00000000#32 ∧ readReg (writeReg s 0#5 v) 0#5 = 0x00000000#32 ∧
    writeReg s 0#5 v = s

/-- 10_state.md R11: `x0` reads zero in every state, and an instruction whose `rd` field is 0 does all that it does with
another `rd`, but for the register result. -/
def Obligations.ZeroDestinationDiscardsTheResultAlone : Prop :=
  (∀ s : State, readReg s 0#5 = 0x00000000#32) ∧
  ∀ (i : Instr) (d : Reg) (s t : State), exec (setDest i d) s = .next t →
    exec (setDest i 0#5) s = .next { t with x := s.x }

/-- 10_state.md section 2: an instruction writes no register but the one its `rd` field names; an instruction of a format
without `rd` writes none. -/
def Obligations.OnlyTheDestinationIsWritten : Prop :=
  ∀ (i : Instr) (s t : State), exec i s = .next t → ∀ r : Reg, destReg i ≠ some r → readReg t r = readReg s r

/-- 10_state.md section 2: an instruction reads no register that its `rs1` and `rs2` fields do not name: if another
register is changed before it, its outcome differs in that register alone. -/
def Obligations.OnlyTheSourcesAreRead : Prop :=
  ∀ (i : Instr) (s t : State) (r : Reg) (v : Word), exec i s = .next t → r ∉ sourceRegs i →
    ∃ u, exec i (writeReg s r v) = .next u ∧ u.pc = t.pc ∧ u.mem = t.mem ∧ u.imem = t.imem ∧ u.halted = t.halted ∧
      u.fault = t.fault ∧ u.plat = t.plat ∧ ∀ q : Reg, q ≠ r → readReg u q = readReg t q

end Register

section Control

open Sys2Proof Sys2Proof.Machine Sys2Proof.Claim

/-- 43_branches.md R151, R152: BEQ and BNE. -/
def Obligations.EqualityBranches : Prop :=
  BranchRule 0b000#3 .beq (fun a b => a = b) ∧ BranchRule 0b001#3 .bne (fun a b => a ≠ b)

/-- 43_branches.md R153, R154: BLT and BGE. -/
def Obligations.SignedBranches : Prop :=
  BranchRule 0b100#3 .blt (fun a b => signed a < signed b) ∧ BranchRule 0b101#3 .bge (fun a b => signed a ≥ signed b)

/-- 43_branches.md R155, R156: BLTU and BGEU. -/
def Obligations.UnsignedBranches : Prop :=
  BranchRule 0b110#3 .bltu (fun a b => a.toNat < b.toNat) ∧ BranchRule 0b111#3 .bgeu (fun a b => a.toNat ≥ b.toNat)

/-- The state a taken branch to a misaligned target leaves: the record, and nothing else. The spec's own choice (D9, D11;
log entry 7). -/
def Obligations.MisalignedBranchChangesNothingElse : Prop :=
  ∀ (rs1 rs2 : Reg) (off : BitVec 13) (s : State), (branchTarget s off).toNat % 4 ≠ 0 →
    ∀ i ∈ [Instr.beq rs1 rs2 off, .bne rs1 rs2 off, .blt rs1 rs2 off, .bge rs1 rs2 off, .bltu rs1 rs2 off,
      .bgeu rs1 rs2 off],
    (transferTarget i s = some (branchTarget s off) → Raises i s (.instructionAddressMisaligned (branchTarget s off))) ∧
    (transferTarget i s = none → SetsPc i s (s.pc + 4#32))

/-- 44_jumps.md, JAL: link and jump to `pc + imm_J`. That a misaligned target raises and links nothing is the spec's own
choice (D10; log entry 11). -/
def Obligations.JumpAndLink : Prop :=
  ∀ (rd : Reg) (off : BitVec 21) (s : State) (b target : Word), IsSignExtended off b → IsSum s.pc b target →
    (off.getLsbD 0 = false →
      decode (off.extractLsb' 20 1 ++ off.extractLsb' 1 10 ++ off.extractLsb' 11 1 ++ off.extractLsb' 12 8 ++ rd ++
        0b1101111#7) = .ok (.jal rd off)) ∧
    (target.toNat % 4 = 0 → LinksAndJumps (.jal rd off) s rd target) ∧
    (target.toNat % 4 ≠ 0 → Raises (.jal rd off) s (.instructionAddressMisaligned target))

/-- 44_jumps.md, JALR: link and jump to the sum with bit 0 cleared. That a target with bit 1 set raises and links nothing
is the spec's own choice (D10; log entry 11). -/
def Obligations.JumpAndLinkRegister : Prop :=
  ∀ (rd rs1 : Reg) (imm : BitVec 12) (s : State) (b sum target : Word), IsSignExtended imm b →
    IsSum (readReg s rs1) b sum → target.toNat = sum.toNat / 2 * 2 →
    decode (imm ++ rs1 ++ 0b000#3 ++ rd ++ 0b1100111#7) = .ok (.jalr rd rs1 imm) ∧
    (sum.getLsbD 1 = false → LinksAndJumps (.jalr rd rs1 imm) s rd target) ∧
    (sum.getLsbD 1 = true → Raises (.jalr rd rs1 imm) s (.instructionAddressMisaligned target))

/-- 10_state.md R15: where `pc` goes after every instruction that raises nothing. -/
def Obligations.ProgramCounterAdvances : Prop :=
  ∀ (i : Instr) (s t : State), Running s → exec i s = .next t → t.fault = none →
    (∀ a, transferTarget i s = some a → t.pc = a) ∧
    (transferTarget i s = none → i ≠ .ebreak → t.pc = s.pc + 4#32) ∧
    (i = .ebreak → t.pc = s.pc)

/-- Targets and addresses are sums with the sign-extended offset modulo `2^32`; for JALR bit 0 is cleared. That they wrap is
the spec's own choice (D1; log entry 12). -/
def Obligations.AddressSumsWrap : Prop :=
  ∀ (s : State) (rs1 : Reg) (imm : BitVec 12) (off : BitVec 13) (far : BitVec 21),
    ((loadAddr s rs1 imm).toNat : Int) = ((readReg s rs1).toNat + imm.toInt) % 4294967296 ∧
    ((storeAddr s rs1 imm).toNat : Int) = ((readReg s rs1).toNat + imm.toInt) % 4294967296 ∧
    ((branchTarget s off).toNat : Int) = (s.pc.toNat + off.toInt) % 4294967296 ∧
    ((jalTarget s far).toNat : Int) = (s.pc.toNat + far.toInt) % 4294967296 ∧
    ((jalrTarget s rs1 imm).toNat : Int) = ((readReg s rs1).toNat + imm.toInt) % 4294967296 / 2 * 2

/-- A jump or a taken branch to itself is an endless loop, not a fault: the step leaves the state as it is, and no number
of steps halts or faults. -/
def Obligations.JumpToItselfRunsForever : Prop :=
  ∀ (s : State) (r : Reg), Running s →
    (fetchInstr s = .runs (.jal 0#5 0#21) ∨ fetchInstr s = .runs (.beq r r 0#13)) →
    step s = .next s ∧ ∀ k, SafeRun k s

/-- 46_system.md, EBREAK: `halted` becomes 1 and all else stays; then there is no step. That `pc` stays is the spec's own
choice (D17; log entry 8), and EBREAK's word is one of the PRESUMED encodings of log entry 14 (G4). -/
def Obligations.EbreakHalts : Prop :=
  decode (0b000000000001#12 ++ 0b00000#5 ++ 0b000#3 ++ 0b00000#5 ++ 0b1110011#7) = .ok .ebreak ∧
  ∀ s : State, ∃ t, exec .ebreak s = .next t ∧ t.halted = true ∧ t.pc = s.pc ∧ SameRegs s t ∧ SameBytes s.mem t.mem ∧
    t.imem = s.imem ∧ t.fault = s.fault ∧ t.plat = s.plat ∧ step t = .fault .halted

/-- A step sets `halted` only by running EBREAK. The model's choice of how a halted machine stands in State: log entry 8. -/
def Obligations.OnlyEbreakHalts : Prop :=
  ∀ s t : State, step s = .next t → s.halted = false ∧ (t.halted = true ↔ fetchInstr s = .runs .ebreak)

end Control

section Memory

open Sys2Proof Sys2Proof.Machine Sys2Proof.Claim

/-- 45_loads_stores.md, loads: encoding, address, value, frame. The value of a byte nothing has written is the model's free
value (log entry 2). -/
def Obligations.LoadsReadMemory : Prop :=
  LoadRule 0b000#3 .lb 1 true ∧ LoadRule 0b100#3 .lbu 1 false ∧ LoadRule 0b001#3 .lh 2 true ∧
  LoadRule 0b101#3 .lhu 2 false ∧ LoadRule 0b010#3 .lw 4 false

/-- The faults of the loads, misaligned before access, and that nothing else changes. The spec's own choice (D2, D7, D9,
D12; log entries 7, 9, 12). -/
def Obligations.LoadsFault : Prop :=
  LoadFaults .lb 1 ∧ LoadFaults .lbu 1 ∧ LoadFaults .lh 2 ∧ LoadFaults .lhu 2 ∧ LoadFaults .lw 4

/-- 45_loads_stores.md, stores: encoding, address, the bytes stored, frame. -/
def Obligations.StoresWriteMemory : Prop :=
  StoreRule 0b000#3 .sb 1 ∧ StoreRule 0b001#3 .sh 2 ∧ StoreRule 0b010#3 .sw 4

/-- The faults of the stores, misaligned before access, and that nothing else changes. The spec's own choice (D2, D7, D9,
D12; log entries 7, 9, 12). -/
def Obligations.StoresFault : Prop := StoreFaults .sb 1 ∧ StoreFaults .sh 2 ∧ StoreFaults .sw 4

/-- 20_memory.md, consistency (the spec's choice D15; log entry 16): a word stored is the word loaded from that address by
the next instruction. -/
def Obligations.LoadAfterStoreReturnsTheWord : Prop :=
  ∀ (s t : State) (rd rs2 b c : Reg) (imm imm' : BitVec 12), rd ≠ 0#5 → (storeAddr s b imm).toNat % 4 = 0 →
    AllMember s.plat.dmemSet (storeAddr s b imm) 4 → exec (.sw rs2 b imm) s = .next t →
    loadAddr t c imm' = storeAddr s b imm →
    ∃ u, exec (.lw rd c imm') t = .next u ∧ readReg u rd = readReg s rs2

/-- 20_memory.md R31: an instruction that is no load and no store does not touch data memory: it neither reads it nor
writes it, and a load does not write it. -/
def Obligations.OnlyLoadsAndStoresTouchMemory : Prop :=
  (∀ (i : Instr) (s : State) (m : Memory), isLoad i = false → isStore i = false →
    exec i (setMem s m) = mapNext (fun t => setMem t m) (exec i s)) ∧
  (∀ (i : Instr) (s t : State), isStore i = false → exec i s = .next t → t.mem = s.mem)

/-- 20_memory.md, mixed widths (a derived rule of the spec): a narrower read sees the bytes of a word written, and a byte
written is seen by a later read of the word. -/
def Obligations.MixedWidthAccess : Prop :=
  ∀ (m : Memory) (a v : Word) (k : Nat) (u : Byte), a.toNat % 4 = 0 → k < 4 →
    memRead1 (memWrite m a 4 v) (a + BitVec.ofNat 32 k) = v.extractLsb' (8 * k) 8 ∧
    memRead2 (memWrite m a 4 v) a = v.extractLsb' 0 16 ∧
    memRead2 (memWrite m a 4 v) (a + 2#32) = v.extractLsb' 16 16 ∧
    memRead4 (memWrite m a 4 v) a = v ∧
    (∀ j < 4, (memRead4 (memWrite (memWrite m a 4 v) (a + BitVec.ofNat 32 k) 1 (u.zeroExtend 32)) a).extractLsb' (8 * j) 8 =
      if j = k then u else v.extractLsb' (8 * j) 8)

/-- 20_memory.md R33: byte `a + k` holds `v[8k+7 : 8k]`, for data written and for an instruction placed and decoded. -/
def Obligations.LittleEndian : Prop :=
  ∀ (m : Memory) (a v : Word), a.toNat % 4 = 0 →
    (∀ k < 4, Memory.get? (memWrite m a 4 v) (a.toNat + k) = some (v.extractLsb' (8 * k) 8)) ∧
    wordIn (memWrite m a 4 v) a = some v ∧
    decodeBytes [v.extractLsb' 0 8, v.extractLsb' 8 8, v.extractLsb' 16 8, v.extractLsb' 24 8] =
      (decode v).map fun i => (i, [])

/-- 20_memory.md, instruction view (the spec's choice D3; log entry 5): with `UNIFIED` false no instruction changes what any
fetch returns. -/
def Obligations.SeparateViewNeverChanges : Prop :=
  ∀ (i : Instr) (s t : State), s.plat.unified = false → exec i s = .next t → ∀ a, fetchWord t a = fetchWord s a

/-- 20_memory.md, instruction view (the spec's choice D3; log entry 5): with `UNIFIED` true a fetch sees the word just
stored. -/
def Obligations.UnifiedViewSeesStores : Prop :=
  ∀ (s : State) (rs2 rs1 : Reg) (imm : BitVec 12), s.plat.unified = true → (storeAddr s rs1 imm).toNat % 4 = 0 →
    AllMember s.plat.dmemSet (storeAddr s rs1 imm) 4 →
    ∃ t, exec (.sw rs2 rs1 imm) s = .next t ∧ fetchWord t (storeAddr s rs1 imm) = some (readReg s rs2)

/-- Where both views hold the same word at `pc`, the step does not depend on `UNIFIED` (D3: "prove independently of it";
log entry 5). -/
def Obligations.StepIndependentOfUnified : Prop :=
  ∀ (s : State) (b : Bool), wordIn s.mem s.pc = wordIn s.imem s.pc →
    step (withUnified b s) = mapNext (withUnified b) (step s)

end Memory

section Coding

open Sys2Proof Sys2Proof.Machine Sys2Proof.Claim

/-- Decoding the encoding of a well-formed instruction gives it back. (Four encodings are PRESUMED: log entry 14.) -/
def Obligations.DecodeOfEncode : Prop := ∀ i : Instr, WellFormed i = true → decode (encode i) = .ok i

/-- A word that decodes is the encoding of the instruction it decodes to, which is well-formed: no two words are one
instruction. (Four encodings are PRESUMED: log entry 14.) -/
def Obligations.EncodeOfDecode : Prop := ∀ (w : Word) (i : Instr), decode w = .ok i → WellFormed i = true ∧ encode i = w

/-- The bytes of a well-formed instruction decode to it and leave the bytes after it; fewer than four bytes are refused. -/
def Obligations.DecodeBytesOfEncodeBytes : Prop :=
  (∀ (i : Instr) (rest : List Byte), WellFormed i = true → decodeBytes (encodeBytes i ++ rest) = .ok (i, rest)) ∧
  ∀ bs : List Byte, bs.length < 4 → decodeBytes bs = .error .tooShort

/-- 30_encoding.md, the remark on the opcode table that the spec marks derived: a word decodes to an instruction of a row
exactly when it has the row's fixed bits. The rows of ADDI to SRAI and of EBREAK hold the PRESUMED encodings of log entry
14. -/
def Obligations.DecodeMatchesOpcodeTable : Prop :=
  ∀ (w : Word) (r : OpcodeRow), r ∈ opcodeTable →
    (w &&& r.mask = r.value ↔ ∃ i, decode w = .ok i ∧ mnemonicOf i = r.mnemonic)

/-- The same remark: no two rows of the opcode table match the same word (the PRESUMED rows of log entry 14 among them). -/
def Obligations.OpcodeRowsDisjoint : Prop :=
  opcodeTable.Pairwise fun r q => ∀ w : Word, ¬(w &&& r.mask = r.value ∧ w &&& q.mask = q.value)

/-- 30_encoding.md R60: every instruction is one word of four bytes that ends in `0b11`; a word that does not is undefined. -/
def Obligations.InstructionsEndInOneOne : Prop :=
  (∀ i : Instr, (encodeBytes i).length = 4 ∧ (encode i).extractLsb' 0 2 = 0b11#2) ∧
  ∀ w : Word, w.extractLsb' 0 2 ≠ 0b11#2 → decode w = .error .sixteenBitSpace

/-- 30_encoding.md, the list of undefined spaces that the spec marks derived: the words of each. The spaces of the
register-immediate and system opcodes rest on the PRESUMED encodings of log entry 14. -/
def Obligations.UndefinedSpaces : Prop :=
  ∀ w : Word,
    (decode w = .error .sixteenBitSpace ↔ w.extractLsb' 0 2 ≠ 0b11#2) ∧
    (decode w = .error .unusedOpcode ↔ w.extractLsb' 0 2 = 0b11#2 ∧
      opcodeField w ∉ [0b0110011#7, 0b0010011#7, 0b0110111#7, 0b0010111#7, 0b1100011#7, 0b1101111#7, 0b1100111#7,
        0b0000011#7, 0b0100011#7, 0b1110011#7]) ∧
    (decode w = .error .registerArithmetic ↔ opcodeField w = 0b0110011#7 ∧ funct7Field w ≠ 0b0000000#7 ∧
      ¬(funct7Field w = 0b0100000#7 ∧ (funct3Field w = 0b000#3 ∨ funct3Field w = 0b101#3))) ∧
    (decode w = .error .shiftImmediate ↔ opcodeField w = 0b0010011#7 ∧
      ((funct3Field w = 0b001#3 ∧ funct7Field w ≠ 0b0000000#7) ∨
       (funct3Field w = 0b101#3 ∧ funct7Field w ≠ 0b0000000#7 ∧ funct7Field w ≠ 0b0100000#7))) ∧
    (decode w = .error .jumpRegister ↔ opcodeField w = 0b1100111#7 ∧ funct3Field w ≠ 0b000#3) ∧
    (decode w = .error .branch ↔ opcodeField w = 0b1100011#7 ∧ funct3Field w ∈ [0b010#3, 0b011#3]) ∧
    (decode w = .error .load ↔ opcodeField w = 0b0000011#7 ∧ funct3Field w ∈ [0b011#3, 0b110#3, 0b111#3]) ∧
    (decode w = .error .store ↔ opcodeField w = 0b0100011#7 ∧
      funct3Field w ∈ [0b011#3, 0b100#3, 0b101#3, 0b110#3, 0b111#3]) ∧
    (decode w = .error .system ↔ opcodeField w = 0b1110011#7 ∧ w ≠ 0x00100073#32)

/-- 30_encoding.md R69 to R73: which bit of the instruction each bit of the five immediates comes from. -/
def Obligations.ImmediateBits : Prop :=
  ∀ (w : Word) (k : Nat), k < 32 →
    ((immI (immIField w)).getLsbD k = if 11 ≤ k then w.getLsbD 31 else w.getLsbD (k + 20)) ∧
    ((immS (immSField w)).getLsbD k =
      if 11 ≤ k then w.getLsbD 31 else if 5 ≤ k then w.getLsbD (k + 20) else w.getLsbD (k + 7)) ∧
    ((immB (immBField w)).getLsbD k =
      if 12 ≤ k then w.getLsbD 31 else if k = 11 then w.getLsbD 7 else if 5 ≤ k then w.getLsbD (k + 20)
      else if 1 ≤ k then w.getLsbD (k + 7) else false) ∧
    ((immU (immUField w)).getLsbD k = if 12 ≤ k then w.getLsbD k else false) ∧
    ((immJ (immJField w)).getLsbD k =
      if 20 ≤ k then w.getLsbD 31 else if 12 ≤ k then w.getLsbD k else if k = 11 then w.getLsbD 20
      else if 1 ≤ k then w.getLsbD (k + 20) else false)

/-- A few words written out bit by bit from the encodings, one a family; those of ADDI, SRAI and EBREAK are PRESUMED
encodings, log entry 14. -/
def Obligations.SampleWordsDecode : Prop :=
  decode 0b0000000_00010_00001_000_00011_0110011#32 = .ok (.add 3 1 2) ∧
  decode 0b111111111111_00110_000_00101_0010011#32 = .ok (.addi 5 6 (-1)) ∧
  decode 0b0100000_00100_00110_101_00101_0010011#32 = .ok (.srai 5 6 4) ∧
  decode 0b00010010001101000101_01010_0110111#32 = .ok (.lui 10 0x12345) ∧
  decode 0b1_111111_00010_00001_001_1110_1_1100011#32 = .ok (.bne 1 2 (-4)) ∧
  decode 0b0_0000000000_1_00000000_00001_1101111#32 = .ok (.jal 1 2048) ∧
  decode 0b111111111110_00101_000_00001_1100111#32 = .ok (.jalr 1 5 (-2)) ∧
  decode 0b000000000010_01000_001_00111_0000011#32 = .ok (.lh 7 8 2) ∧
  decode 0b0000000_00111_01000_010_00100_0100011#32 = .ok (.sw 7 8 4) ∧
  decode 0b000000000001_00000_000_00000_1110011#32 = .ok .ebreak

/-- 30_encoding.md, the canonical NOP: its word decodes to `addi x0, x0, 0`, which changes nothing but `pc`. The word
holds the PRESUMED opcode of log entry 14. -/
def Obligations.NopOnlyAdvances : Prop :=
  decode 0x00000013#32 = .ok (.addi 0 0 0) ∧ ∀ s : State, exec (.addi 0 0 0) s = .next { s with pc := s.pc + 4#32 }

end Coding

section Machine

open Sys2Proof Sys2Proof.Machine Sys2Proof.Claim

/-- 10_state.md, the step rule: in a running state with `pc` a multiple of 4 in `IMEM` at which both views of memory hold
the encoding of a well-formed instruction, the step is that instruction's meaning and nothing around it. -/
def Obligations.StepRunsDecodedInstruction : Prop :=
  ∀ (s : State) (i : Instr) (w : Word), Running s → s.pc.toNat % 4 = 0 → AllMember s.plat.imemSet s.pc 4 →
    wordIn s.mem s.pc = some w → wordIn s.imem s.pc = some w → decode w = .ok i → step s = exec i s

/-- The order of the step rule's tests: stopped, fetch fault, undefined word, execution. The two raises are the spec's own
choice (D2, D8, D12; log entries 9, 10, 12); what the model answers for a stopped state and for a fetch without a value is the
model's (log entries 3 and 7). -/
def Obligations.StepOrder : Prop :=
  ∀ s : State,
    (s.halted = true → step s = .fault .halted) ∧
    (∀ r, s.halted = false → s.fault = some r → step s = .fault (.faulted r)) ∧
    (Running s → s.pc.toNat % 4 = 0 →
      (¬AllMember s.plat.imemSet s.pc 4 → ∃ t, step s = .next t ∧ OnlyRaises s t (.fetchAccessFault s.pc)) ∧
      (AllMember s.plat.imemSet s.pc 4 →
        (fetchWord s s.pc = none → step s = .refused .unwrittenFetch) ∧
        (∀ w e, fetchWord s s.pc = some w → decode w = .error e →
          ∃ t, step s = .next t ∧ OnlyRaises s t (.illegalInstruction s.pc w)) ∧
        (∀ w i, fetchWord s s.pc = some w → decode w = .ok i → step s = exec i s)))

/-- A running machine that keeps the invariant, with a value in both views for the four bytes at `pc`, always has a next
state: no instruction and no word stops the model. -/
def Obligations.RunningMachineSteps : Prop :=
  ∀ (s : State) (v w : Word), Inv s → Running s → wordIn s.mem s.pc = some v → wordIn s.imem s.pc = some w →
    ∃ t, step s = .next t

/-- Every instruction answers a next state in every state: no meaning ends in a fault or a refusal of the model. -/
def Obligations.EveryInstructionAnswersNext : Prop := ∀ (i : Instr) (s : State), ∃ t, exec i s = .next t

/-- A fault is precise: a step that records one changes nothing else. The spec's own choice (D9; log entry 7). -/
def Obligations.FaultsArePrecise : Prop :=
  ∀ (s t : State) (r : FaultRecord), step s = .next t → t.fault = some r → OnlyRaises s t r

/-- Which instructions can raise which records, and when: a transfer its own target where that is no multiple of 4, a load
or store its own address where that is misaligned, or aligned with a byte of the access outside `DMEM`. Six of the seven
records, and the first one on a jump, are the spec's own choice (D2, D7, D8, D10, D12; log entries 9 to 12). -/
def Obligations.InstructionsRaiseOnlyTheirRecords : Prop :=
  ∀ (i : Instr) (s t : State) (r : FaultRecord), s.fault = none → exec i s = .next t → t.fault = some r → mayRaise i s r

/-- No step changes the instruction view of memory or the platform. The spec's own choice (D3, D16; log entries 5, 16). -/
def Obligations.ViewAndPlatformAreConstant : Prop :=
  ∀ s t : State, step s = .next t → t.imem = s.imem ∧ t.plat = s.plat

/-- Every step keeps the invariant. -/
def Obligations.StepKeepsInvariant : Prop := ∀ s t : State, Inv s → step s = .next t → Inv t

/-- The invariant holds right after reset on every platform with legal parameters, and on the model's default platform
(log entry 4). -/
def Obligations.ResetMeetsInvariant : Prop :=
  (∀ p : Platform, Platform.wf p → Inv (State.resetOf p)) ∧ Inv State.reset

/-- What a reset leaves: `pc` at `RESET_PC`, nothing halted or faulted, `x0` zero, both views with `INIT_MEM`'s bytes where
it defines them (the instruction view at the addresses of `IMEM`). The spec's own choice (D4, D6, D9, D17; log entries 4
and 6). -/
def Obligations.ResetState : Prop :=
  ∀ p : Platform,
    (State.resetOf p).pc = p.resetPc ∧ Running (State.resetOf p) ∧ readReg (State.resetOf p) 0#5 = 0x00000000#32 ∧
    (State.resetOf p).plat = p ∧
    (∀ a, Memory.get? (State.resetOf p).mem a = Memory.get? p.initMem a) ∧
    (∀ a, Memory.get? (State.resetOf p).imem a = if memberAddr p.imemSet a = true then Memory.get? p.initMem a else none)

/-- A step reads memory only through the word fetched and the bytes a load addresses. If two states agree on the registers,
`pc`, the halt signal, the fault record, the platform, the word at `pc` and, where it is a load, the bytes it loads, then
their steps have the same outcome: the same stop or refusal, or next states that agree on all of these registers and
control, each with its own instruction view, and on every byte of memory on which the two states agreed. -/
def Obligations.StepDependsOnVisibleStateAlone : Prop :=
  ∀ s s' : State, SameRegs s s' → s'.pc = s.pc → s'.halted = s.halted → s'.fault = s.fault → s'.plat = s.plat →
    fetchWord s' s.pc = fetchWord s s.pc →
    (∀ i, fetchInstr s = .runs i → ∀ k < (loadedBytes i s).2,
      Memory.get? s'.mem ((loadedBytes i s).1 + BitVec.ofNat 32 k).toNat =
        Memory.get? s.mem ((loadedBytes i s).1 + BitVec.ofNat 32 k).toNat) →
    (∀ f, step s = .fault f → step s' = .fault f) ∧
    (∀ r, step s = .refused r → step s' = .refused r) ∧
    (∀ t, step s = .next t → ∃ t', step s' = .next t' ∧ SameRegs t t' ∧ t'.pc = t.pc ∧ t'.halted = t.halted ∧
      t'.fault = t.fault ∧ t'.plat = t.plat ∧ t'.imem = s'.imem ∧
      ∀ c, Memory.get? s'.mem c = Memory.get? s.mem c → Memory.get? t'.mem c = Memory.get? t.mem c)

end Machine
end

