-- ==== Sys2Proof/Laws/Encoding.lean ====
section
/-! SUPPORT. The bits of each format's word, and each field of it read back (30_encoding.md R61 to R75). -/

namespace Sys2Proof

/-- The bits of a word of this format. -/
theorem packR_getLsbD (f7 : BitVec 7) (rs2 rs1 : BitVec 5) (f3 : BitVec 3) (rd : Reg) (op : BitVec 7) (i : Nat) :
    (packR f7 rs2 rs1 f3 rd op).getLsbD i =
      if i < 7 then op.getLsbD i
      else if i < 12 then rd.getLsbD (i - 7)
      else if i < 15 then f3.getLsbD (i - 12)
      else if i < 20 then rs1.getLsbD (i - 15)
      else if i < 25 then rs2.getLsbD (i - 20)
      else f7.getLsbD (i - 25) := by
  refine (BitVec.getLsbD_append (x := f7 ++ rs2 ++ rs1 ++ f3 ++ rd) (y := op) (i := i)).trans ?_
  simp only [BitVec.getLsbD_append, Nat.sub_sub]
  repeat' split
  all_goals first | rfl | omega

/-- The bits of a word of this format. -/
theorem packI_getLsbD (imm : BitVec 12) (rs1 : Reg) (f3 : BitVec 3) (rd : Reg) (op : BitVec 7) (i : Nat) :
    (packI imm rs1 f3 rd op).getLsbD i =
      if i < 7 then op.getLsbD i
      else if i < 12 then rd.getLsbD (i - 7)
      else if i < 15 then f3.getLsbD (i - 12)
      else if i < 20 then rs1.getLsbD (i - 15)
      else imm.getLsbD (i - 20) := by
  refine (BitVec.getLsbD_append (x := imm ++ rs1 ++ f3 ++ rd) (y := op) (i := i)).trans ?_
  simp only [BitVec.getLsbD_append, Nat.sub_sub]
  repeat' split
  all_goals first | rfl | omega

/-- The bits of a word of this format. -/
theorem packS_getLsbD (imm : BitVec 12) (rs2 rs1 : Reg) (f3 : BitVec 3) (op : BitVec 7) (i : Nat) :
    (packS imm rs2 rs1 f3 op).getLsbD i =
      if i < 7 then op.getLsbD i
      else if i < 12 then (imm.extractLsb' 0 5).getLsbD (i - 7)
      else if i < 15 then f3.getLsbD (i - 12)
      else if i < 20 then rs1.getLsbD (i - 15)
      else if i < 25 then rs2.getLsbD (i - 20)
      else (imm.extractLsb' 5 7).getLsbD (i - 25) := by
  refine (BitVec.getLsbD_append (x := imm.extractLsb' 5 7 ++ rs2 ++ rs1 ++ f3 ++ imm.extractLsb' 0 5) (y := op) (i := i)).trans ?_
  simp only [BitVec.getLsbD_append, Nat.sub_sub]
  repeat' split
  all_goals first | rfl | omega

/-- The bits of a word of this format. -/
theorem packB_getLsbD (off : BitVec 13) (rs2 rs1 : Reg) (f3 : BitVec 3) (op : BitVec 7) (i : Nat) :
    (packB off rs2 rs1 f3 op).getLsbD i =
      if i < 7 then op.getLsbD i
      else if i < 8 then (off.extractLsb' 11 1).getLsbD (i - 7)
      else if i < 12 then (off.extractLsb' 1 4).getLsbD (i - 8)
      else if i < 15 then f3.getLsbD (i - 12)
      else if i < 20 then rs1.getLsbD (i - 15)
      else if i < 25 then rs2.getLsbD (i - 20)
      else if i < 31 then (off.extractLsb' 5 6).getLsbD (i - 25)
      else (off.extractLsb' 12 1).getLsbD (i - 31) := by
  refine (BitVec.getLsbD_append (x := off.extractLsb' 12 1 ++ off.extractLsb' 5 6 ++ rs2 ++ rs1 ++ f3 ++ off.extractLsb' 1 4 ++ off.extractLsb' 11 1) (y := op) (i := i)).trans ?_
  simp only [BitVec.getLsbD_append, Nat.sub_sub]
  repeat' split
  all_goals first | rfl | omega

/-- The bits of a word of this format. -/
theorem packU_getLsbD (imm : BitVec 20) (rd : Reg) (op : BitVec 7) (i : Nat) :
    (packU imm rd op).getLsbD i =
      if i < 7 then op.getLsbD i
      else if i < 12 then rd.getLsbD (i - 7)
      else imm.getLsbD (i - 12) := by
  refine (BitVec.getLsbD_append (x := imm ++ rd) (y := op) (i := i)).trans ?_
  simp only [BitVec.getLsbD_append, Nat.sub_sub]
  repeat' split
  all_goals first | rfl | omega

/-- The bits of a word of this format. -/
theorem packJ_getLsbD (off : BitVec 21) (rd : Reg) (op : BitVec 7) (i : Nat) :
    (packJ off rd op).getLsbD i =
      if i < 7 then op.getLsbD i
      else if i < 12 then rd.getLsbD (i - 7)
      else if i < 20 then (off.extractLsb' 12 8).getLsbD (i - 12)
      else if i < 21 then (off.extractLsb' 11 1).getLsbD (i - 20)
      else if i < 31 then (off.extractLsb' 1 10).getLsbD (i - 21)
      else (off.extractLsb' 20 1).getLsbD (i - 31) := by
  refine (BitVec.getLsbD_append (x := off.extractLsb' 20 1 ++ off.extractLsb' 1 10 ++ off.extractLsb' 11 1 ++ off.extractLsb' 12 8 ++ rd) (y := op) (i := i)).trans ?_
  simp only [BitVec.getLsbD_append, Nat.sub_sub]
  repeat' split
  all_goals first | rfl | omega

/-- The bits of a word of this format. -/
theorem immSField_getLsbD (w : Word) (i : Nat) :
    (immSField w).getLsbD i =
      if i < 5 then (w.extractLsb' 7 5).getLsbD i
      else (w.extractLsb' 25 7).getLsbD (i - 5) := by
  refine (BitVec.getLsbD_append (x := w.extractLsb' 25 7) (y := w.extractLsb' 7 5) (i := i)).trans ?_
  rfl

/-- The bits of a word of this format. -/
theorem immBField_getLsbD (w : Word) (i : Nat) :
    (immBField w).getLsbD i =
      if i < 1 then (0b0#1).getLsbD i
      else if i < 5 then (w.extractLsb' 8 4).getLsbD (i - 1)
      else if i < 11 then (w.extractLsb' 25 6).getLsbD (i - 5)
      else if i < 12 then (w.extractLsb' 7 1).getLsbD (i - 11)
      else (w.extractLsb' 31 1).getLsbD (i - 12) := by
  refine (BitVec.getLsbD_append (x := w.extractLsb' 31 1 ++ w.extractLsb' 7 1 ++ w.extractLsb' 25 6 ++ w.extractLsb' 8 4) (y := 0b0#1) (i := i)).trans ?_
  simp only [BitVec.getLsbD_append, Nat.sub_sub]
  repeat' split
  all_goals first | rfl | omega

/-- The bits of a word of this format. -/
theorem immJField_getLsbD (w : Word) (i : Nat) :
    (immJField w).getLsbD i =
      if i < 1 then (0b0#1).getLsbD i
      else if i < 11 then (w.extractLsb' 21 10).getLsbD (i - 1)
      else if i < 12 then (w.extractLsb' 20 1).getLsbD (i - 11)
      else if i < 20 then (w.extractLsb' 12 8).getLsbD (i - 12)
      else (w.extractLsb' 31 1).getLsbD (i - 20) := by
  refine (BitVec.getLsbD_append (x := w.extractLsb' 31 1 ++ w.extractLsb' 12 8 ++ w.extractLsb' 20 1 ++ w.extractLsb' 21 10) (y := 0b0#1) (i := i)).trans ?_
  simp only [BitVec.getLsbD_append, Nat.sub_sub]
  repeat' split
  all_goals first | rfl | omega

/-- The bits of a word of this format. -/
theorem wordOfBytes_getLsbD (b0 b1 b2 b3 : Byte) (i : Nat) :
    (wordOfBytes b0 b1 b2 b3).getLsbD i =
      if i < 8 then b0.getLsbD i
      else if i < 16 then b1.getLsbD (i - 8)
      else if i < 24 then b2.getLsbD (i - 16)
      else b3.getLsbD (i - 24) := by
  refine (BitVec.getLsbD_append (x := b3 ++ b2 ++ b1) (y := b0) (i := i)).trans ?_
  simp only [BitVec.getLsbD_append, Nat.sub_sub]
  repeat' split
  all_goals first | rfl | omega

@[simp] theorem opcodeField_packR (f7 : BitVec 7) (rs2 rs1 : BitVec 5) (f3 : BitVec 3) (rd : Reg) (op : BitVec 7) : opcodeField (packR f7 rs2 rs1 f3 rd op) = op := by
  apply BitVec.eq_of_getLsbD_eq
  intro i hi
  simp only [opcodeField, BitVec.getLsbD_extractLsb', packR_getLsbD]
  interval_cases i <;> simp

@[simp] theorem rdField_packR (f7 : BitVec 7) (rs2 rs1 : BitVec 5) (f3 : BitVec 3) (rd : Reg) (op : BitVec 7) : rdField (packR f7 rs2 rs1 f3 rd op) = rd := by
  apply BitVec.eq_of_getLsbD_eq
  intro i hi
  simp only [rdField, BitVec.getLsbD_extractLsb', packR_getLsbD]
  interval_cases i <;> simp

@[simp] theorem funct3Field_packR (f7 : BitVec 7) (rs2 rs1 : BitVec 5) (f3 : BitVec 3) (rd : Reg) (op : BitVec 7) : funct3Field (packR f7 rs2 rs1 f3 rd op) = f3 := by
  apply BitVec.eq_of_getLsbD_eq
  intro i hi
  simp only [funct3Field, BitVec.getLsbD_extractLsb', packR_getLsbD]
  interval_cases i <;> simp

@[simp] theorem rs1Field_packR (f7 : BitVec 7) (rs2 rs1 : BitVec 5) (f3 : BitVec 3) (rd : Reg) (op : BitVec 7) : rs1Field (packR f7 rs2 rs1 f3 rd op) = rs1 := by
  apply BitVec.eq_of_getLsbD_eq
  intro i hi
  simp only [rs1Field, BitVec.getLsbD_extractLsb', packR_getLsbD]
  interval_cases i <;> simp

@[simp] theorem rs2Field_packR (f7 : BitVec 7) (rs2 rs1 : BitVec 5) (f3 : BitVec 3) (rd : Reg) (op : BitVec 7) : rs2Field (packR f7 rs2 rs1 f3 rd op) = rs2 := by
  apply BitVec.eq_of_getLsbD_eq
  intro i hi
  simp only [rs2Field, BitVec.getLsbD_extractLsb', packR_getLsbD]
  interval_cases i <;> simp

@[simp] theorem funct7Field_packR (f7 : BitVec 7) (rs2 rs1 : BitVec 5) (f3 : BitVec 3) (rd : Reg) (op : BitVec 7) : funct7Field (packR f7 rs2 rs1 f3 rd op) = f7 := by
  apply BitVec.eq_of_getLsbD_eq
  intro i hi
  simp only [funct7Field, BitVec.getLsbD_extractLsb', packR_getLsbD]
  interval_cases i <;> simp

@[simp] theorem shamtField_packR (f7 : BitVec 7) (rs2 rs1 : BitVec 5) (f3 : BitVec 3) (rd : Reg) (op : BitVec 7) : shamtField (packR f7 rs2 rs1 f3 rd op) = rs2 := by
  apply BitVec.eq_of_getLsbD_eq
  intro i hi
  simp only [shamtField, BitVec.getLsbD_extractLsb', packR_getLsbD]
  interval_cases i <;> simp

@[simp] theorem opcodeField_packI (imm : BitVec 12) (rs1 : Reg) (f3 : BitVec 3) (rd : Reg) (op : BitVec 7) : opcodeField (packI imm rs1 f3 rd op) = op := by
  apply BitVec.eq_of_getLsbD_eq
  intro i hi
  simp only [opcodeField, BitVec.getLsbD_extractLsb', packI_getLsbD]
  interval_cases i <;> simp

@[simp] theorem rdField_packI (imm : BitVec 12) (rs1 : Reg) (f3 : BitVec 3) (rd : Reg) (op : BitVec 7) : rdField (packI imm rs1 f3 rd op) = rd := by
  apply BitVec.eq_of_getLsbD_eq
  intro i hi
  simp only [rdField, BitVec.getLsbD_extractLsb', packI_getLsbD]
  interval_cases i <;> simp

@[simp] theorem funct3Field_packI (imm : BitVec 12) (rs1 : Reg) (f3 : BitVec 3) (rd : Reg) (op : BitVec 7) : funct3Field (packI imm rs1 f3 rd op) = f3 := by
  apply BitVec.eq_of_getLsbD_eq
  intro i hi
  simp only [funct3Field, BitVec.getLsbD_extractLsb', packI_getLsbD]
  interval_cases i <;> simp

@[simp] theorem rs1Field_packI (imm : BitVec 12) (rs1 : Reg) (f3 : BitVec 3) (rd : Reg) (op : BitVec 7) : rs1Field (packI imm rs1 f3 rd op) = rs1 := by
  apply BitVec.eq_of_getLsbD_eq
  intro i hi
  simp only [rs1Field, BitVec.getLsbD_extractLsb', packI_getLsbD]
  interval_cases i <;> simp

@[simp] theorem immIField_packI (imm : BitVec 12) (rs1 : Reg) (f3 : BitVec 3) (rd : Reg) (op : BitVec 7) : immIField (packI imm rs1 f3 rd op) = imm := by
  apply BitVec.eq_of_getLsbD_eq
  intro i hi
  simp only [immIField, BitVec.getLsbD_extractLsb', packI_getLsbD]
  interval_cases i <;> simp

@[simp] theorem opcodeField_packS (imm : BitVec 12) (rs2 rs1 : Reg) (f3 : BitVec 3) (op : BitVec 7) : opcodeField (packS imm rs2 rs1 f3 op) = op := by
  apply BitVec.eq_of_getLsbD_eq
  intro i hi
  simp only [opcodeField, BitVec.getLsbD_extractLsb', packS_getLsbD]
  interval_cases i <;> simp

@[simp] theorem funct3Field_packS (imm : BitVec 12) (rs2 rs1 : Reg) (f3 : BitVec 3) (op : BitVec 7) : funct3Field (packS imm rs2 rs1 f3 op) = f3 := by
  apply BitVec.eq_of_getLsbD_eq
  intro i hi
  simp only [funct3Field, BitVec.getLsbD_extractLsb', packS_getLsbD]
  interval_cases i <;> simp

@[simp] theorem rs1Field_packS (imm : BitVec 12) (rs2 rs1 : Reg) (f3 : BitVec 3) (op : BitVec 7) : rs1Field (packS imm rs2 rs1 f3 op) = rs1 := by
  apply BitVec.eq_of_getLsbD_eq
  intro i hi
  simp only [rs1Field, BitVec.getLsbD_extractLsb', packS_getLsbD]
  interval_cases i <;> simp

@[simp] theorem rs2Field_packS (imm : BitVec 12) (rs2 rs1 : Reg) (f3 : BitVec 3) (op : BitVec 7) : rs2Field (packS imm rs2 rs1 f3 op) = rs2 := by
  apply BitVec.eq_of_getLsbD_eq
  intro i hi
  simp only [rs2Field, BitVec.getLsbD_extractLsb', packS_getLsbD]
  interval_cases i <;> simp

@[simp] theorem immSField_packS (imm : BitVec 12) (rs2 rs1 : Reg) (f3 : BitVec 3) (op : BitVec 7) : immSField (packS imm rs2 rs1 f3 op) = imm := by
  apply BitVec.eq_of_getLsbD_eq
  intro i hi
  simp only [immSField_getLsbD, BitVec.getLsbD_extractLsb', packS_getLsbD]
  interval_cases i <;> simp

@[simp] theorem opcodeField_packB (off : BitVec 13) (rs2 rs1 : Reg) (f3 : BitVec 3) (op : BitVec 7) : opcodeField (packB off rs2 rs1 f3 op) = op := by
  apply BitVec.eq_of_getLsbD_eq
  intro i hi
  simp only [opcodeField, BitVec.getLsbD_extractLsb', packB_getLsbD]
  interval_cases i <;> simp

@[simp] theorem funct3Field_packB (off : BitVec 13) (rs2 rs1 : Reg) (f3 : BitVec 3) (op : BitVec 7) : funct3Field (packB off rs2 rs1 f3 op) = f3 := by
  apply BitVec.eq_of_getLsbD_eq
  intro i hi
  simp only [funct3Field, BitVec.getLsbD_extractLsb', packB_getLsbD]
  interval_cases i <;> simp

@[simp] theorem rs1Field_packB (off : BitVec 13) (rs2 rs1 : Reg) (f3 : BitVec 3) (op : BitVec 7) : rs1Field (packB off rs2 rs1 f3 op) = rs1 := by
  apply BitVec.eq_of_getLsbD_eq
  intro i hi
  simp only [rs1Field, BitVec.getLsbD_extractLsb', packB_getLsbD]
  interval_cases i <;> simp

@[simp] theorem rs2Field_packB (off : BitVec 13) (rs2 rs1 : Reg) (f3 : BitVec 3) (op : BitVec 7) : rs2Field (packB off rs2 rs1 f3 op) = rs2 := by
  apply BitVec.eq_of_getLsbD_eq
  intro i hi
  simp only [rs2Field, BitVec.getLsbD_extractLsb', packB_getLsbD]
  interval_cases i <;> simp

@[simp] theorem immBField_packB (off : BitVec 13) (rs2 rs1 : Reg) (f3 : BitVec 3) (op : BitVec 7) (h : evenOffset off = true) : immBField (packB off rs2 rs1 f3 op) = off := by
  have h0 : off[0] = false := by simpa [evenOffset] using h
  apply BitVec.eq_of_getLsbD_eq
  intro i hi
  simp only [immBField_getLsbD, BitVec.getLsbD_extractLsb', packB_getLsbD]
  interval_cases i <;> simp [h0]

@[simp] theorem opcodeField_packU (imm : BitVec 20) (rd : Reg) (op : BitVec 7) : opcodeField (packU imm rd op) = op := by
  apply BitVec.eq_of_getLsbD_eq
  intro i hi
  simp only [opcodeField, BitVec.getLsbD_extractLsb', packU_getLsbD]
  interval_cases i <;> simp

@[simp] theorem rdField_packU (imm : BitVec 20) (rd : Reg) (op : BitVec 7) : rdField (packU imm rd op) = rd := by
  apply BitVec.eq_of_getLsbD_eq
  intro i hi
  simp only [rdField, BitVec.getLsbD_extractLsb', packU_getLsbD]
  interval_cases i <;> simp

@[simp] theorem immUField_packU (imm : BitVec 20) (rd : Reg) (op : BitVec 7) : immUField (packU imm rd op) = imm := by
  apply BitVec.eq_of_getLsbD_eq
  intro i hi
  simp only [immUField, BitVec.getLsbD_extractLsb', packU_getLsbD]
  interval_cases i <;> simp

@[simp] theorem opcodeField_packJ (off : BitVec 21) (rd : Reg) (op : BitVec 7) : opcodeField (packJ off rd op) = op := by
  apply BitVec.eq_of_getLsbD_eq
  intro i hi
  simp only [opcodeField, BitVec.getLsbD_extractLsb', packJ_getLsbD]
  interval_cases i <;> simp

@[simp] theorem rdField_packJ (off : BitVec 21) (rd : Reg) (op : BitVec 7) : rdField (packJ off rd op) = rd := by
  apply BitVec.eq_of_getLsbD_eq
  intro i hi
  simp only [rdField, BitVec.getLsbD_extractLsb', packJ_getLsbD]
  interval_cases i <;> simp

@[simp] theorem immJField_packJ (off : BitVec 21) (rd : Reg) (op : BitVec 7) (h : evenOffset off = true) : immJField (packJ off rd op) = off := by
  have h0 : off[0] = false := by simpa [evenOffset] using h
  apply BitVec.eq_of_getLsbD_eq
  intro i hi
  simp only [immJField_getLsbD, BitVec.getLsbD_extractLsb', packJ_getLsbD]
  interval_cases i <;> simp [h0]

/-- The fixed bits of a word of this format. -/
theorem packR_and_mask (f7 : BitVec 7) (rs2 rs1 : BitVec 5) (f3 : BitVec 3) (rd : Reg) (op : BitVec 7) : packR f7 rs2 rs1 f3 rd op &&& 0xFE00707F#32 = packR f7 0 0 f3 0 op := by
  apply BitVec.eq_of_getLsbD_eq
  intro i hi
  simp only [BitVec.getLsbD_and, packR_getLsbD]
  interval_cases i <;> simp

/-- The fixed bits of a word of this format. -/
theorem packI_and_mask (imm : BitVec 12) (rs1 : Reg) (f3 : BitVec 3) (rd : Reg) (op : BitVec 7) : packI imm rs1 f3 rd op &&& 0x0000707F#32 = packI 0 0 f3 0 op := by
  apply BitVec.eq_of_getLsbD_eq
  intro i hi
  simp only [BitVec.getLsbD_and, packI_getLsbD]
  interval_cases i <;> simp

/-- The fixed bits of a word of this format. -/
theorem packS_and_mask (imm : BitVec 12) (rs2 rs1 : Reg) (f3 : BitVec 3) (op : BitVec 7) : packS imm rs2 rs1 f3 op &&& 0x0000707F#32 = packS 0 0 0 f3 op := by
  apply BitVec.eq_of_getLsbD_eq
  intro i hi
  simp only [BitVec.getLsbD_and, packS_getLsbD]
  interval_cases i <;> simp

/-- The fixed bits of a word of this format. -/
theorem packB_and_mask (off : BitVec 13) (rs2 rs1 : Reg) (f3 : BitVec 3) (op : BitVec 7) : packB off rs2 rs1 f3 op &&& 0x0000707F#32 = packB 0 0 0 f3 op := by
  apply BitVec.eq_of_getLsbD_eq
  intro i hi
  simp only [BitVec.getLsbD_and, packB_getLsbD]
  interval_cases i <;> simp

/-- The fixed bits of a word of this format. -/
theorem packU_and_mask (imm : BitVec 20) (rd : Reg) (op : BitVec 7) : packU imm rd op &&& 0x0000007F#32 = packU 0 0 op := by
  apply BitVec.eq_of_getLsbD_eq
  intro i hi
  simp only [BitVec.getLsbD_and, packU_getLsbD]
  interval_cases i <;> simp

/-- The fixed bits of a word of this format. -/
theorem packJ_and_mask (off : BitVec 21) (rd : Reg) (op : BitVec 7) : packJ off rd op &&& 0x0000007F#32 = packJ 0 0 op := by
  apply BitVec.eq_of_getLsbD_eq
  intro i hi
  simp only [BitVec.getLsbD_and, packJ_getLsbD]
  interval_cases i <;> simp

/-- The fields of a word put together again give the word. -/
theorem packR_fields (w : Word) : packR (funct7Field w) (rs2Field w) (rs1Field w) (funct3Field w) (rdField w) (opcodeField w) = w := by
  apply BitVec.eq_of_getLsbD_eq; intro i hi; rw [packR_getLsbD]; simp only [funct7Field, rs2Field, rs1Field, funct3Field, rdField, opcodeField]; interval_cases i <;> simp

/-- The fields of a word put together again give the word. -/
theorem packR_shamtField (w : Word) : packR (funct7Field w) (shamtField w) (rs1Field w) (funct3Field w) (rdField w) (opcodeField w) = w := packR_fields w
/-- The fields of a word put together again give the word. -/
theorem packI_fields (w : Word) : packI (immIField w) (rs1Field w) (funct3Field w) (rdField w) (opcodeField w) = w := by
  apply BitVec.eq_of_getLsbD_eq; intro i hi; rw [packI_getLsbD]; simp only [immIField, rs1Field, funct3Field, rdField, opcodeField]; interval_cases i <;> simp

/-- The fields of a word put together again give the word. -/
theorem packS_fields (w : Word) : packS (immSField w) (rs2Field w) (rs1Field w) (funct3Field w) (opcodeField w) = w := by
  apply BitVec.eq_of_getLsbD_eq; intro i hi; rw [packS_getLsbD]; simp only [BitVec.getLsbD_extractLsb', immSField_getLsbD, rs2Field, rs1Field, funct3Field, opcodeField]; interval_cases i <;> simp

/-- The fields of a word put together again give the word. -/
theorem packB_fields (w : Word) : packB (immBField w) (rs2Field w) (rs1Field w) (funct3Field w) (opcodeField w) = w := by
  apply BitVec.eq_of_getLsbD_eq; intro i hi; rw [packB_getLsbD]; simp only [BitVec.getLsbD_extractLsb', immBField_getLsbD, rs2Field, rs1Field, funct3Field, opcodeField]; interval_cases i <;> simp

/-- The fields of a word put together again give the word. -/
theorem packU_fields (w : Word) : packU (immUField w) (rdField w) (opcodeField w) = w := by
  apply BitVec.eq_of_getLsbD_eq; intro i hi; rw [packU_getLsbD]; simp only [immUField, rdField, opcodeField]; interval_cases i <;> simp

/-- The fields of a word put together again give the word. -/
theorem packJ_fields (w : Word) : packJ (immJField w) (rdField w) (opcodeField w) = w := by
  apply BitVec.eq_of_getLsbD_eq; intro i hi; rw [packJ_getLsbD]; simp only [BitVec.getLsbD_extractLsb', immJField_getLsbD, rdField, opcodeField]; interval_cases i <;> simp

/-- The offset a word encodes is even. -/
theorem evenOffset_immBField (w : Word) : evenOffset (immBField w) = true := by
  have := immBField_getLsbD w 0; simp at this; simp [evenOffset, this]

/-- The offset a word encodes is even. -/
theorem evenOffset_immJField (w : Word) : evenOffset (immJField w) = true := by
  have := immJField_getLsbD w 0; simp at this; simp [evenOffset, this]

end Sys2Proof
end

