-- ==== Sys2Proof/Laws/State.lean ====
section
/-! SUPPORT. One lemma per field per update of the state, so that no proof unfolds a record update. -/

namespace Sys2Proof.Machine

@[simp] theorem setPc_x (s : State) (t : Word) : (setPc s t).x = s.x := rfl
@[simp] theorem setPc_pc (s : State) (t : Word) : (setPc s t).pc = t := rfl
@[simp] theorem setPc_mem (s : State) (t : Word) : (setPc s t).mem = s.mem := rfl
@[simp] theorem setPc_imem (s : State) (t : Word) : (setPc s t).imem = s.imem := rfl
@[simp] theorem setPc_halted (s : State) (t : Word) : (setPc s t).halted = s.halted := rfl
@[simp] theorem setPc_fault (s : State) (t : Word) : (setPc s t).fault = s.fault := rfl
@[simp] theorem setPc_plat (s : State) (t : Word) : (setPc s t).plat = s.plat := rfl

@[simp] theorem setMem_x (s : State) (m : Memory) : (setMem s m).x = s.x := rfl
@[simp] theorem setMem_pc (s : State) (m : Memory) : (setMem s m).pc = s.pc := rfl
@[simp] theorem setMem_mem (s : State) (m : Memory) : (setMem s m).mem = m := rfl
@[simp] theorem setMem_imem (s : State) (m : Memory) : (setMem s m).imem = s.imem := rfl
@[simp] theorem setMem_halted (s : State) (m : Memory) : (setMem s m).halted = s.halted := rfl
@[simp] theorem setMem_fault (s : State) (m : Memory) : (setMem s m).fault = s.fault := rfl
@[simp] theorem setMem_plat (s : State) (m : Memory) : (setMem s m).plat = s.plat := rfl

@[simp] theorem halt_x (s : State) : (halt s).x = s.x := rfl
@[simp] theorem halt_pc (s : State) : (halt s).pc = s.pc := rfl
@[simp] theorem halt_mem (s : State) : (halt s).mem = s.mem := rfl
@[simp] theorem halt_imem (s : State) : (halt s).imem = s.imem := rfl
@[simp] theorem halt_halted (s : State) : (halt s).halted = true := rfl
@[simp] theorem halt_fault (s : State) : (halt s).fault = s.fault := rfl
@[simp] theorem halt_plat (s : State) : (halt s).plat = s.plat := rfl

@[simp] theorem raise_x (s : State) (r : FaultRecord) : (raise s r).x = s.x := rfl
@[simp] theorem raise_pc (s : State) (r : FaultRecord) : (raise s r).pc = s.pc := rfl
@[simp] theorem raise_mem (s : State) (r : FaultRecord) : (raise s r).mem = s.mem := rfl
@[simp] theorem raise_imem (s : State) (r : FaultRecord) : (raise s r).imem = s.imem := rfl
@[simp] theorem raise_halted (s : State) (r : FaultRecord) : (raise s r).halted = s.halted := rfl
@[simp] theorem raise_fault (s : State) (r : FaultRecord) : (raise s r).fault = some r := rfl
@[simp] theorem raise_plat (s : State) (r : FaultRecord) : (raise s r).plat = s.plat := rfl

@[simp] theorem advance_x (s : State) : (advance s).x = s.x := rfl
@[simp] theorem advance_pc (s : State) : (advance s).pc = s.pc + 4#32 := rfl
@[simp] theorem advance_mem (s : State) : (advance s).mem = s.mem := rfl
@[simp] theorem advance_imem (s : State) : (advance s).imem = s.imem := rfl
@[simp] theorem advance_halted (s : State) : (advance s).halted = s.halted := rfl
@[simp] theorem advance_fault (s : State) : (advance s).fault = s.fault := rfl
@[simp] theorem advance_plat (s : State) : (advance s).plat = s.plat := rfl

@[simp] theorem writeReg_pc (s : State) (i : Reg) (v : Word) : (writeReg s i v).pc = s.pc := by
  unfold writeReg; split <;> rfl
@[simp] theorem writeReg_mem (s : State) (i : Reg) (v : Word) : (writeReg s i v).mem = s.mem := by
  unfold writeReg; split <;> rfl
@[simp] theorem writeReg_imem (s : State) (i : Reg) (v : Word) : (writeReg s i v).imem = s.imem := by
  unfold writeReg; split <;> rfl
@[simp] theorem writeReg_halted (s : State) (i : Reg) (v : Word) : (writeReg s i v).halted = s.halted := by
  unfold writeReg; split <;> rfl
@[simp] theorem writeReg_fault (s : State) (i : Reg) (v : Word) : (writeReg s i v).fault = s.fault := by
  unfold writeReg; split <;> rfl
@[simp] theorem writeReg_plat (s : State) (i : Reg) (v : Word) : (writeReg s i v).plat = s.plat := by
  unfold writeReg; split <;> rfl

@[simp] theorem setAndAdvance_x (s : State) (rd : Reg) (v : Word) : (setAndAdvance s rd v).x = (writeReg s rd v).x := by
  simp [setAndAdvance]
@[simp] theorem setAndAdvance_pc (s : State) (rd : Reg) (v : Word) : (setAndAdvance s rd v).pc = s.pc + 4#32 := by
  simp [setAndAdvance]
@[simp] theorem setAndAdvance_mem (s : State) (rd : Reg) (v : Word) : (setAndAdvance s rd v).mem = s.mem := by
  simp [setAndAdvance]
@[simp] theorem setAndAdvance_imem (s : State) (rd : Reg) (v : Word) : (setAndAdvance s rd v).imem = s.imem := by
  simp [setAndAdvance]
@[simp] theorem setAndAdvance_halted (s : State) (rd : Reg) (v : Word) : (setAndAdvance s rd v).halted = s.halted := by
  simp [setAndAdvance]
@[simp] theorem setAndAdvance_fault (s : State) (rd : Reg) (v : Word) : (setAndAdvance s rd v).fault = s.fault := by
  simp [setAndAdvance]
@[simp] theorem setAndAdvance_plat (s : State) (rd : Reg) (v : Word) : (setAndAdvance s rd v).plat = s.plat := by
  simp [setAndAdvance]

end Sys2Proof.Machine
end

