-- ==== Sys2Proof/Laws/Memory.lean ====
section
/-! SUPPORT. The memory operations: what one byte reads as after each, and that each keeps the canonical form
(20_memory.md R34 to R36). -/

namespace Sys2Proof.Machine

@[simp] theorem Memory.get?_nil (a : Nat) : Memory.get? [] a = none := rfl

/-- Reading one byte after giving one byte a value. -/
theorem Memory.get?_put (m : Memory) (a b : Nat) (v : Byte) :
    Memory.get? (Memory.put m a v) b = if b = a then some v else Memory.get? m b := by
  induction m with
  | nil => simp [Memory.put, Memory.get?, eq_comm]
  | cons c rest ih =>
    obtain ⟨k, u⟩ := c
    unfold Memory.put
    split
    · simp [Memory.get?, eq_comm]
    · split
      · next h1 h2 =>
        subst h2
        by_cases hb : b = a
        · simp [Memory.get?, hb]
        · simp [Memory.get?, hb, Ne.symm hb]
      · next h1 h2 =>
        by_cases hk : k = b
        · subst hk
          simp [Memory.get?, Ne.symm h2]
        · simp [Memory.get?, hk, ih]

/-- The addresses of a memory after giving one byte a value. -/
theorem Memory.mem_put {m : Memory} {a : Nat} {v : Byte} {c : Host.Cell} (h : c ∈ Memory.put m a v) :
    c = (a, v) ∨ c ∈ m := by
  induction m with
  | nil => simpa [Memory.put] using h
  | cons d rest ih =>
    obtain ⟨k, u⟩ := d
    unfold Memory.put at h
    split at h
    · simpa using h
    · split at h
      · simp only [List.mem_cons] at h ⊢
        tauto
      · simp only [List.mem_cons] at h ⊢
        rcases h with h | h
        · tauto
        · have := ih h
          tauto

theorem Memory.put_wf {m : Memory} (hm : Memory.wf m) {a : Nat} (ha : a < 4294967296) (v : Byte) :
    Memory.wf (Memory.put m a v) := by
  obtain ⟨hp, hb⟩ := hm
  refine ⟨?_, fun c hc => ?_⟩
  · clear hb
    induction m with
    | nil => simp [Memory.put]
    | cons d rest ih =>
      obtain ⟨k, u⟩ := d
      have hrest := List.pairwise_cons.mp hp
      unfold Memory.put
      split
      · next h =>
        refine List.pairwise_cons.mpr ⟨fun c hc => ?_, hp⟩
        rcases List.mem_cons.mp hc with rfl | hc
        · exact h
        · exact lt_trans h (hrest.1 c hc)
      · split
        · next h1 h2 =>
          subst h2
          exact List.pairwise_cons.mpr ⟨fun c hc => hrest.1 c hc, hrest.2⟩
        · next h1 h2 =>
          refine List.pairwise_cons.mpr ⟨fun c hc => ?_, ih hrest.2⟩
          rcases Memory.mem_put hc with rfl | hc
          · change k < a
            omega
          · exact hrest.1 c hc
  · rcases Memory.mem_put hc with rfl | hc
    · exact ha
    · exact hb c hc

theorem writeBytes_wf {m : Memory} (hm : Memory.wf m) (a : Word) (bs : List Byte) :
    Memory.wf (writeBytes m a bs) := by
  induction bs generalizing m a with
  | nil => exact hm
  | cons b bs ih => exact ih (Memory.put_wf hm a.isLt b) _

theorem memWrite_wf {m : Memory} (hm : Memory.wf m) (a : Word) (n : Nat) (v : Word) :
    Memory.wf (memWrite m a n v) := writeBytes_wf hm a _

/-- A load's byte is read through `Memory.get?`. -/
theorem byteAt_congr {m m' : Memory} {a : Word} (h : Memory.get? m' a.toNat = Memory.get? m a.toNat) :
    byteAt m' a = byteAt m a := by simp [byteAt, h]

theorem byteAt_of_get? {m : Memory} {a : Word} {b : Byte} (h : Memory.get? m a.toNat = some b) : byteAt m a = b := by
  simp [byteAt, h]

@[simp] theorem offsetAddr_zero (a : Word) : offsetAddr a 0 = a := by simp [offsetAddr]

/-- A one-byte read depends on that byte alone. -/
theorem memRead1_congr {m m' : Memory} {a : Word}
    (h : ∀ k < 1, Memory.get? m' (offsetAddr a k).toNat = Memory.get? m (offsetAddr a k).toNat) :
    memRead1 m' a = memRead1 m a := byteAt_congr (by simpa using h 0 (by decide))

/-- A two-byte read depends on those bytes alone. -/
theorem memRead2_congr {m m' : Memory} {a : Word}
    (h : ∀ k < 2, Memory.get? m' (offsetAddr a k).toNat = Memory.get? m (offsetAddr a k).toNat) :
    memRead2 m' a = memRead2 m a := by
  have h0 : byteAt m' a = byteAt m a := byteAt_congr (by simpa using h 0 (by decide))
  simp only [memRead2, h0, byteAt_congr (h 1 (by decide))]

/-- A four-byte read depends on those bytes alone. -/
theorem memRead4_congr {m m' : Memory} {a : Word}
    (h : ∀ k < 4, Memory.get? m' (offsetAddr a k).toNat = Memory.get? m (offsetAddr a k).toNat) :
    memRead4 m' a = memRead4 m a := by
  have h0 : byteAt m' a = byteAt m a := byteAt_congr (by simpa using h 0 (by decide))
  simp only [memRead4, h0, byteAt_congr (h 1 (by decide)), byteAt_congr (h 2 (by decide)),
    byteAt_congr (h 3 (by decide))]

/-- The address `k` bytes on, where nothing wraps. -/
theorem offsetAddr_toNat {a : Word} {k : Nat} (h : a.toNat + k < 4294967296) :
    (offsetAddr a k).toNat = a.toNat + k := by
  have hk : k < 4294967296 := by omega
  simp only [offsetAddr, BitVec.toNat_add, BitVec.toNat_ofNat]
  omega

/-- Reading one byte after a write of bytes that does not wrap. -/
theorem get?_writeBytes (m : Memory) (a : Word) (bs : List Byte) (h : a.toNat + bs.length ≤ 4294967296) (c : Nat) :
    Memory.get? (writeBytes m a bs) c =
      if a.toNat ≤ c ∧ c < a.toNat + bs.length then bs[c - a.toNat]? else Memory.get? m c := by
  induction bs generalizing m a with
  | nil =>
    have hno : ¬(a.toNat ≤ c ∧ c < a.toNat + ([] : List Byte).length) := by
      simp only [List.length_nil]; omega
    rw [if_neg hno]; rfl
  | cons b bs ih =>
    simp only [List.length_cons] at h ⊢
    rw [writeBytes]
    by_cases hn : bs = []
    · subst hn
      simp only [writeBytes, Memory.get?_put, List.length_nil]
      by_cases hc : c = a.toNat
      · simp [hc]
      · rw [if_neg hc, if_neg (by omega)]
    · have hpos : 0 < bs.length := List.length_pos_iff.mpr hn
      have ht : (offsetAddr a 1).toNat = a.toNat + 1 := offsetAddr_toNat (by omega)
      rw [ih _ _ (by omega), ht, Memory.get?_put]
      by_cases hc : c = a.toNat
      · subst hc
        rw [if_neg (by omega), if_pos rfl, if_pos (by omega)]
        simp
      · by_cases hin : a.toNat + 1 ≤ c ∧ c < a.toNat + 1 + bs.length
        · rw [if_pos hin, if_pos (by omega)]
          obtain ⟨j, rfl⟩ : ∃ j, c = a.toNat + 1 + j := ⟨c - (a.toNat + 1), by omega⟩
          have h1 : a.toNat + 1 + j - (a.toNat + 1) = j := by omega
          have h2 : a.toNat + 1 + j - a.toNat = j + 1 := by omega
          rw [h1, h2, List.getElem?_cons_succ]
        · rw [if_neg hin, if_neg hc, if_neg (by omega)]

@[simp] theorem bytesOfWord_length (v : Word) : (bytesOfWord v).length = 4 := rfl

/-- Reading one byte after a write of `n` bytes of a word that does not wrap (20_memory.md R35). -/
theorem get?_memWrite (m : Memory) (a : Word) (n : Nat) (v : Word) (hn : n ≤ 4) (h : a.toNat + n ≤ 4294967296) (c : Nat) :
    Memory.get? (memWrite m a n v) c =
      if a.toNat ≤ c ∧ c < a.toNat + n then some (byteOfWord v (c - a.toNat)) else Memory.get? m c := by
  have hl : ((bytesOfWord v).take n).length = n := by simp [hn]
  rw [memWrite, get?_writeBytes _ _ _ (by rw [hl]; exact h), hl]
  by_cases hc : a.toNat ≤ c ∧ c < a.toNat + n
  · rw [if_pos hc, if_pos hc]
    obtain ⟨j, rfl⟩ : ∃ j, c = a.toNat + j := ⟨c - a.toNat, by omega⟩
    have hj : j < 4 := by omega
    have e : a.toNat + j - a.toNat = j := by omega
    rw [e, List.getElem?_take, if_pos (by omega)]
    interval_cases j <;> rfl
  · rw [if_neg hc, if_neg hc]

/-- An address aligned for a width is far enough from the end of the address space. -/
theorem aligned_room {w : Width} {a : Word} (h : alignedFor w a = true) : a.toNat + widthBytes w ≤ 4294967296 := by
  have hlt := a.isLt
  have h' : a.toNat % widthBytes w = 0 := by simpa [alignedFor] using h
  cases w <;> simp only [widthBytes] at h' ⊢ <;> omega

end Sys2Proof.Machine
end

