-- ==== Sys2Proof/Laws/Registers.lean ====
section
/-! SUPPORT. Reading registers after each update (10_state.md R10, R11). -/

namespace Sys2Proof.Machine

@[simp] theorem readReg_setPc (s : State) (t : Word) (r : Reg) : readReg (setPc s t) r = readReg s r := rfl
@[simp] theorem readReg_advance (s : State) (r : Reg) : readReg (advance s) r = readReg s r := rfl
@[simp] theorem readReg_setMem (s : State) (m : Memory) (r : Reg) : readReg (setMem s m) r = readReg s r := rfl
@[simp] theorem readReg_halt (s : State) (r : Reg) : readReg (halt s) r = readReg s r := rfl
@[simp] theorem readReg_raise (s : State) (f : FaultRecord) (r : Reg) : readReg (raise s f) r = readReg s r := rfl

/-- Registers are read from the register file alone. -/
theorem readReg_congr {s t : State} (h : t.x = s.x) (r : Reg) : readReg t r = readReg s r := by
  simp [readReg, h]

/-- Two different registers other than `x0` have different slots. -/
theorem slot_inj {i j : Reg} (hi : i ≠ 0#5) (hj : j ≠ 0#5) (h : slot i = slot j) : i = j := by
  have hi' : i.toNat ≠ 0 := fun e => hi (BitVec.eq_of_toNat_eq e)
  have hj' : j.toNat ≠ 0 := fun e => hj (BitVec.eq_of_toNat_eq e)
  unfold slot at h
  exact BitVec.eq_of_toNat_eq (by omega)

/-- A write is seen by reads of that register alone, and not at all for `x0`. -/
theorem readReg_writeReg (s : State) (i r : Reg) (v : Word) :
    readReg (writeReg s i v) r = if r = i ∧ i ≠ 0#5 then v else readReg s r := by
  by_cases hr : r = 0#5
  · subst hr
    by_cases hi : i = 0#5
    · simp [readReg, hi]
    · simp [readReg, Ne.symm hi]
  · by_cases hi : i = 0#5
    · simp [writeReg, hi]
    · by_cases h : r = i
      · subst h; simp [readReg, writeReg, hr]
      · have hs : slot i ≠ slot r := fun e => h (slot_inj hi hr e).symm
        simp [readReg, writeReg, hr, hi, h, Vector.getElem_set_ne, hs]

@[simp] theorem readReg_setAndAdvance (s : State) (rd r : Reg) (v : Word) :
    readReg (setAndAdvance s rd v) r = if r = rd ∧ rd ≠ 0#5 then v else readReg s r := by
  simp [setAndAdvance, readReg_writeReg]

end Sys2Proof.Machine
end

