-- ==== Sys2Proof/Laws/Ops.lean ====
section
/-! SUPPORT. One lemma per shared operation that says once everything it can do. -/

namespace Sys2Proof.Machine

/-- The checks before a load: misaligned before access (20_memory.md R34). -/
theorem loadFault_cases (p : Platform) (w : Width) (a : Word) :
    (alignedFor w a = false ∧ loadFault p w a = some (.loadAddressMisaligned a)) ∨
    (alignedFor w a = true ∧ allIn p.dmemSet a (widthBytes w) = false ∧ loadFault p w a = some (.loadAccessFault a)) ∨
    (alignedFor w a = true ∧ allIn p.dmemSet a (widthBytes w) = true ∧ loadFault p w a = none) := by
  unfold loadFault
  cases alignedFor w a <;> cases allIn p.dmemSet a (widthBytes w) <;> simp

/-- The checks before a store: misaligned before access (20_memory.md R35). -/
theorem storeFault_cases (p : Platform) (w : Width) (a : Word) :
    (alignedFor w a = false ∧ storeFault p w a = some (.storeAddressMisaligned a)) ∨
    (alignedFor w a = true ∧ allIn p.dmemSet a (widthBytes w) = false ∧ storeFault p w a = some (.storeAccessFault a)) ∨
    (alignedFor w a = true ∧ allIn p.dmemSet a (widthBytes w) = true ∧ storeFault p w a = none) := by
  unfold storeFault
  cases alignedFor w a <;> cases allIn p.dmemSet a (widthBytes w) <;> simp

/-- A control transfer goes to an aligned target or raises. -/
theorem transfer_cases (s : State) (target : Word) (t : State) :
    (target.toNat % 4 = 0 ∧ transfer s target t = setPc t target) ∨
    (target.toNat % 4 ≠ 0 ∧ transfer s target t = raise s (.instructionAddressMisaligned target)) := by
  unfold transfer
  split <;> simp_all

/-- A branch is not taken, or is a transfer to its target that changes nothing else. -/
theorem branchIf_cases (s : State) (cond : Bool) (off : BitVec 13) :
    (cond = false ∧ branchIf s cond off = advance s) ∨
    (cond = true ∧ (branchTarget s off).toNat % 4 = 0 ∧ branchIf s cond off = setPc s (branchTarget s off)) ∨
    (cond = true ∧ (branchTarget s off).toNat % 4 ≠ 0 ∧
      branchIf s cond off = raise s (.instructionAddressMisaligned (branchTarget s off))) := by
  cases cond
  · simp [branchIf]
  · rcases transfer_cases s (branchTarget s off) s with h | h <;> simp [branchIf, h]

/-- A load raises one of its two records, or writes its register and advances. -/
theorem loadInto_cases (s : State) (w : Width) (rd : Reg) (a : Word) (value : Memory → Word → Word) :
    (alignedFor w a = false ∧ loadInto s w rd a value = raise s (.loadAddressMisaligned a)) ∨
    (alignedFor w a = true ∧ allIn s.plat.dmemSet a (widthBytes w) = false ∧
      loadInto s w rd a value = raise s (.loadAccessFault a)) ∨
    (alignedFor w a = true ∧ allIn s.plat.dmemSet a (widthBytes w) = true ∧
      loadInto s w rd a value = setAndAdvance s rd (value s.mem a)) := by
  rcases loadFault_cases s.plat w a with h | h | h <;> simp [loadInto, h]

/-- A store raises one of its two records, or writes memory and advances. -/
theorem storeFrom_cases (s : State) (w : Width) (a v : Word) :
    (alignedFor w a = false ∧ storeFrom s w a v = raise s (.storeAddressMisaligned a)) ∨
    (alignedFor w a = true ∧ allIn s.plat.dmemSet a (widthBytes w) = false ∧
      storeFrom s w a v = raise s (.storeAccessFault a)) ∨
    (alignedFor w a = true ∧ allIn s.plat.dmemSet a (widthBytes w) = true ∧
      storeFrom s w a v = advance (setMem s (memWrite s.mem a (widthBytes w) v))) := by
  rcases storeFault_cases s.plat w a with h | h | h <;> simp [storeFrom, h]

/-- Membership of the bytes of an access that does not wrap. -/
theorem allIn_iff (rs : AddrSet) (a : Word) (n : Nat) (h : a.toNat + n ≤ 4294967296) :
    allIn rs a n = true ↔ ∀ k < n, memberAddr rs (a.toNat + k) = true := by
  simp only [allIn, List.all_eq_true, List.mem_range]
  refine forall_congr' fun k => forall_congr' fun hk => ?_
  rw [offsetAddr_toNat (by omega)]

/-- The bytes of an access that does not wrap are not all in the set when one of them is outside. -/
theorem allIn_eq_false_iff (rs : AddrSet) (a : Word) (n : Nat) (h : a.toNat + n ≤ 4294967296) :
    allIn rs a n = false ↔ ∃ k < n, memberAddr rs (a.toNat + k) = false := by
  rw [← Bool.not_eq_true, allIn_iff rs a n h]
  simp

/-- The alignment check as arithmetic. -/
theorem alignedFor_iff (w : Width) (a : Word) : alignedFor w a = true ↔ a.toNat % widthBytes w = 0 := by
  simp [alignedFor]

/-- A multiple of 4 plus 4, modulo `2^32`, is a multiple of 4. -/
theorem add_four_aligned {p : Word} (h : p.toNat % 4 = 0) : (p + 4#32).toNat % 4 = 0 := by
  simp only [BitVec.toNat_add, BitVec.toNat_ofNat]
  omega

/-- The fetch sees the data view if `UNIFIED`, else the instruction view (20_memory.md R40). -/
theorem fetchWord_eq (s : State) (a : Word) :
    fetchWord s a = if s.plat.unified then wordIn s.mem a else wordIn s.imem a := by
  unfold fetchWord
  by_cases h : wordIn s.mem a = wordIn s.imem a <;> simp [h]

end Sys2Proof.Machine
end

