-- ==== Sys2Proof/Laws/Step.lean ====
section
/-! SUPPORT. Everything fetching and stepping can do, said once (10_state.md R20). -/

namespace Sys2Proof.Machine

/-- What the first four parts of the step rule find, with the conditions under which each is found. -/
theorem fetchInstr_cases (s : State) :
    (s.halted = true ∧ fetchInstr s = .stops .halted) ∨
    (∃ r, s.halted = false ∧ s.fault = some r ∧ fetchInstr s = .stops (.faulted r)) ∨
    (s.halted = false ∧ s.fault = none ∧
      ((s.pc.toNat % 4 ≠ 0 ∧ fetchInstr s = .refuses .misalignedFetch) ∨
       (s.pc.toNat % 4 = 0 ∧ allIn s.plat.imemSet s.pc 4 = false ∧ fetchInstr s = .raises (.fetchAccessFault s.pc)) ∨
       (s.pc.toNat % 4 = 0 ∧ allIn s.plat.imemSet s.pc 4 = true ∧
         ((fetchWord s s.pc = none ∧ fetchInstr s = .refuses .unwrittenFetch) ∨
          (∃ w e, fetchWord s s.pc = some w ∧ decode w = .error e ∧
            fetchInstr s = .raises (.illegalInstruction s.pc w)) ∨
          (∃ w i, fetchWord s s.pc = some w ∧ decode w = .ok i ∧ fetchInstr s = .runs i))))) := by
  unfold fetchInstr
  cases hh : s.halted
  · cases hf : s.fault with
    | some r => simp
    | none =>
      by_cases hp : s.pc.toNat % 4 = 0
      · cases hi : allIn s.plat.imemSet s.pc 4
        · simp [hp]
        · cases hw : fetchWord s s.pc with
          | none => simp [hp]
          | some w => cases hd : decode w <;> simp [hp, hd]
      · simp [hp]
  · simp

/-- A step with a next state either raises a fault of the fetch or the decoding, or runs the decoded instruction. -/
theorem step_next_cases {s t : State} (h : step s = .next t) :
    (∃ r, fetchInstr s = .raises r ∧ t = raise s r) ∨ (∃ i, fetchInstr s = .runs i ∧ exec i s = .next t) := by
  unfold step at h
  cases hf : fetchInstr s with
  | stops f => simp [hf] at h
  | refuses r => simp [hf] at h
  | raises r => simp only [hf, Host.Outcome.next.injEq] at h; exact .inl ⟨r, rfl, h.symm⟩
  | runs i => simp only [hf] at h; exact .inr ⟨i, rfl, h⟩

theorem step_of_runs {s : State} {i : Instr} (h : fetchInstr s = .runs i) : step s = exec i s := by
  simp [step, h]

end Sys2Proof.Machine
end

