-- ==== Sys2Proof/Laws/Exec.lean ====
section
/-! SUPPORT. Every next state an instruction can answer, said once, so that a proof about all instructions has seven cases
instead of thirty-eight. -/

namespace Sys2Proof.Machine

/-- Every next state an instruction can answer, each with what that says of the instruction. -/
inductive Shape (i : Instr) (s : State) : State → Prop
  /-- `rd` is set and `pc` advances. -/
  | set (rd : Reg) (v : Word) : destReg i = some rd → transferTarget i s = none → i ≠ .ebreak →
      Shape i s (setAndAdvance s rd v)
  /-- `pc` advances: a branch not taken. -/
  | adv : transferTarget i s = none → i ≠ .ebreak → Shape i s (advance s)
  /-- A branch taken. -/
  | jmp (t : Word) : transferTarget i s = some t → t.toNat % 4 = 0 → Shape i s (setPc s t)
  /-- A jump. -/
  | link (rd : Reg) (v t : Word) : destReg i = some rd → transferTarget i s = some t → t.toNat % 4 = 0 →
      Shape i s (setPc (writeReg s rd v) t)
  /-- A record is raised. -/
  | rse (r : FaultRecord) : mayRaise i s r → FaultFits s r → Shape i s (raise s r)
  /-- A store. -/
  | sto (w : Width) (a v : Word) : isStore i = true → transferTarget i s = none → i ≠ .ebreak → alignedFor w a = true →
      Shape i s (advance (setMem s (memWrite s.mem a (widthBytes w) v)))
  /-- EBREAK. -/
  | hlt : i = .ebreak → Shape i s (halt s)

/-- A load has one of the shapes. -/
theorem Shape.load {i s w rd a value} (h1 : destReg i = some rd) (h2 : transferTarget i s = none) (h3 : i ≠ .ebreak)
    (h4 : ∀ r, loadMayRaise s a (widthBytes w) r → mayRaise i s r) : Shape i s (loadInto s w rd a value) := by
  rcases loadInto_cases s w rd a value with ⟨ha, h⟩ | ⟨ha, hb, h⟩ | ⟨_, _, h⟩ <;> rw [h]
  · have hm : a.toNat % widthBytes w ≠ 0 := fun e => by simp [(alignedFor_iff w a).mpr e] at ha
    refine .rse _ (h4 _ (.inl ⟨hm, rfl⟩)) ?_
    simp only [FaultFits]
    cases w <;> simp only [widthBytes] at hm <;> omega
  · exact .rse _ (h4 _ (.inr ⟨(alignedFor_iff w a).mp ha, (allIn_eq_false_iff _ a _ (aligned_room ha)).mp hb, rfl⟩))
      ⟨w, ha, hb⟩
  · exact .set _ _ h1 h2 h3

/-- A store has one of the shapes. -/
theorem Shape.store {i s w a v} (h1 : isStore i = true) (h2 : transferTarget i s = none) (h3 : i ≠ .ebreak)
    (h4 : ∀ r, storeMayRaise s a (widthBytes w) r → mayRaise i s r) : Shape i s (storeFrom s w a v) := by
  rcases storeFrom_cases s w a v with ⟨ha, h⟩ | ⟨ha, hb, h⟩ | ⟨ha, _, h⟩ <;> rw [h]
  · have hm : a.toNat % widthBytes w ≠ 0 := fun e => by simp [(alignedFor_iff w a).mpr e] at ha
    refine .rse _ (h4 _ (.inl ⟨hm, rfl⟩)) ?_
    simp only [FaultFits]
    cases w <;> simp only [widthBytes] at hm <;> omega
  · exact .rse _ (h4 _ (.inr ⟨(alignedFor_iff w a).mp ha, (allIn_eq_false_iff _ a _ (aligned_room ha)).mp hb, rfl⟩))
      ⟨w, ha, hb⟩
  · exact .sto w a v h1 h2 h3 ha

/-- A branch has one of the shapes. -/
theorem Shape.branch {i s c off} (h1 : transferTarget i s = if c = true then some (branchTarget s off) else none)
    (h3 : i ≠ .ebreak) (h4 : ∀ r, targetMayRaise i s r → mayRaise i s r) : Shape i s (branchIf s c off) := by
  rcases branchIf_cases s c off with ⟨hc, h⟩ | ⟨hc, ha, h⟩ | ⟨hc, ha, h⟩ <;> rw [h] <;> simp [hc] at h1
  · exact .adv h1 h3
  · exact .jmp _ h1 ha
  · exact .rse _ (h4 _ ⟨_, h1, ha, rfl⟩) ha

/-- A jump has one of the shapes. -/
theorem Shape.jump {i s tg rd v} (h0 : destReg i = some rd) (h1 : transferTarget i s = some tg)
    (h4 : ∀ r, targetMayRaise i s r → mayRaise i s r) : Shape i s (transfer s tg (writeReg s rd v)) := by
  rcases transfer_cases s tg (writeReg s rd v) with ⟨ha, h⟩ | ⟨ha, h⟩ <;> rw [h]
  · exact .link _ _ _ h0 h1 ha
  · exact .rse _ (h4 _ ⟨_, h1, ha, rfl⟩) ha

/-- Every next state of every instruction has one of the shapes. -/
theorem exec_shape {i s t} (h : exec i s = .next t) : Shape i s t := by
  cases i
  case add | sub | sll | slt | sltu | xor | srl | sra | or | and | addi | slti | sltiu | andi | ori | xori | slli | srli
      | srai | lui | auipc => cases h; exact .set _ _ rfl rfl (by simp)
  case beq | bne | blt | bge | bltu | bgeu =>
    cases h
    refine .branch ?_ (by simp) (fun _ hr => hr)
    simp [transferTarget, lessSigned, lessUnsigned]
  case jal | jalr => cases h; exact .jump rfl rfl (fun _ hr => hr)
  case lb | lbu | lh | lhu | lw => cases h; exact .load rfl rfl (by simp) (fun _ hr => hr)
  case sb | sh | sw => cases h; exact .store rfl rfl (by simp) (fun _ hr => hr)
  case ebreak => cases h; exact .hlt rfl

end Sys2Proof.Machine
end

