-- ==== Sys2Proof/Laws/PerInstr.lean ====
section
/-! SUPPORT. The family of statements made for each instruction: its encoding lies in its own row of the opcode table. -/

namespace Sys2Proof.Laws.TableRow

/-- The word of the instruction has exactly the fixed bits of the opcode table's row of its mnemonic (30_encoding.md R77). -/
def Statement (i : Instr) : Prop :=
  ∃ r ∈ opcodeTable, r.mnemonic = mnemonicOf i ∧ encode i &&& r.mask = r.value

/-- A row found at a known place of the table. -/
theorem of_row {i : Instr} (k : Nat) (r : OpcodeRow) (hk : opcodeTable[k]? = some r) (hm : r.mnemonic = mnemonicOf i)
    (hv : encode i &&& r.mask = r.value) : Statement i :=
  ⟨r, List.mem_of_getElem? hk, hm, hv⟩

theorem add (rd : Reg) (rs1 : Reg) (rs2 : Reg) : Statement (.add rd rs1 rs2) :=
  of_row 0 _ rfl rfl (by rw [encode]; exact (packR_and_mask ..).trans (by decide))

theorem sub (rd : Reg) (rs1 : Reg) (rs2 : Reg) : Statement (.sub rd rs1 rs2) :=
  of_row 1 _ rfl rfl (by rw [encode]; exact (packR_and_mask ..).trans (by decide))

theorem sll (rd : Reg) (rs1 : Reg) (rs2 : Reg) : Statement (.sll rd rs1 rs2) :=
  of_row 2 _ rfl rfl (by rw [encode]; exact (packR_and_mask ..).trans (by decide))

theorem slt (rd : Reg) (rs1 : Reg) (rs2 : Reg) : Statement (.slt rd rs1 rs2) :=
  of_row 3 _ rfl rfl (by rw [encode]; exact (packR_and_mask ..).trans (by decide))

theorem sltu (rd : Reg) (rs1 : Reg) (rs2 : Reg) : Statement (.sltu rd rs1 rs2) :=
  of_row 4 _ rfl rfl (by rw [encode]; exact (packR_and_mask ..).trans (by decide))

theorem xor (rd : Reg) (rs1 : Reg) (rs2 : Reg) : Statement (.xor rd rs1 rs2) :=
  of_row 5 _ rfl rfl (by rw [encode]; exact (packR_and_mask ..).trans (by decide))

theorem srl (rd : Reg) (rs1 : Reg) (rs2 : Reg) : Statement (.srl rd rs1 rs2) :=
  of_row 6 _ rfl rfl (by rw [encode]; exact (packR_and_mask ..).trans (by decide))

theorem sra (rd : Reg) (rs1 : Reg) (rs2 : Reg) : Statement (.sra rd rs1 rs2) :=
  of_row 7 _ rfl rfl (by rw [encode]; exact (packR_and_mask ..).trans (by decide))

theorem or (rd : Reg) (rs1 : Reg) (rs2 : Reg) : Statement (.or rd rs1 rs2) :=
  of_row 8 _ rfl rfl (by rw [encode]; exact (packR_and_mask ..).trans (by decide))

theorem and (rd : Reg) (rs1 : Reg) (rs2 : Reg) : Statement (.and rd rs1 rs2) :=
  of_row 9 _ rfl rfl (by rw [encode]; exact (packR_and_mask ..).trans (by decide))

theorem addi (rd : Reg) (rs1 : Reg) (imm : BitVec 12) : Statement (.addi rd rs1 imm) :=
  of_row 10 _ rfl rfl (by rw [encode]; exact (packI_and_mask ..).trans (by decide))

theorem slti (rd : Reg) (rs1 : Reg) (imm : BitVec 12) : Statement (.slti rd rs1 imm) :=
  of_row 11 _ rfl rfl (by rw [encode]; exact (packI_and_mask ..).trans (by decide))

theorem sltiu (rd : Reg) (rs1 : Reg) (imm : BitVec 12) : Statement (.sltiu rd rs1 imm) :=
  of_row 12 _ rfl rfl (by rw [encode]; exact (packI_and_mask ..).trans (by decide))

theorem andi (rd : Reg) (rs1 : Reg) (imm : BitVec 12) : Statement (.andi rd rs1 imm) :=
  of_row 13 _ rfl rfl (by rw [encode]; exact (packI_and_mask ..).trans (by decide))

theorem ori (rd : Reg) (rs1 : Reg) (imm : BitVec 12) : Statement (.ori rd rs1 imm) :=
  of_row 14 _ rfl rfl (by rw [encode]; exact (packI_and_mask ..).trans (by decide))

theorem xori (rd : Reg) (rs1 : Reg) (imm : BitVec 12) : Statement (.xori rd rs1 imm) :=
  of_row 15 _ rfl rfl (by rw [encode]; exact (packI_and_mask ..).trans (by decide))

theorem slli (rd : Reg) (rs1 : Reg) (shamt : BitVec 5) : Statement (.slli rd rs1 shamt) :=
  of_row 16 _ rfl rfl (by rw [encode]; exact (packR_and_mask ..).trans (by decide))

theorem srli (rd : Reg) (rs1 : Reg) (shamt : BitVec 5) : Statement (.srli rd rs1 shamt) :=
  of_row 17 _ rfl rfl (by rw [encode]; exact (packR_and_mask ..).trans (by decide))

theorem srai (rd : Reg) (rs1 : Reg) (shamt : BitVec 5) : Statement (.srai rd rs1 shamt) :=
  of_row 18 _ rfl rfl (by rw [encode]; exact (packR_and_mask ..).trans (by decide))

theorem lui (rd : Reg) (imm : BitVec 20) : Statement (.lui rd imm) :=
  of_row 19 _ rfl rfl (by rw [encode]; exact (packU_and_mask ..).trans (by decide))

theorem auipc (rd : Reg) (imm : BitVec 20) : Statement (.auipc rd imm) :=
  of_row 20 _ rfl rfl (by rw [encode]; exact (packU_and_mask ..).trans (by decide))

theorem beq (rs1 : Reg) (rs2 : Reg) (off : BitVec 13) : Statement (.beq rs1 rs2 off) :=
  of_row 21 _ rfl rfl (by rw [encode]; exact (packB_and_mask ..).trans (by decide))

theorem bne (rs1 : Reg) (rs2 : Reg) (off : BitVec 13) : Statement (.bne rs1 rs2 off) :=
  of_row 22 _ rfl rfl (by rw [encode]; exact (packB_and_mask ..).trans (by decide))

theorem blt (rs1 : Reg) (rs2 : Reg) (off : BitVec 13) : Statement (.blt rs1 rs2 off) :=
  of_row 23 _ rfl rfl (by rw [encode]; exact (packB_and_mask ..).trans (by decide))

theorem bge (rs1 : Reg) (rs2 : Reg) (off : BitVec 13) : Statement (.bge rs1 rs2 off) :=
  of_row 24 _ rfl rfl (by rw [encode]; exact (packB_and_mask ..).trans (by decide))

theorem bltu (rs1 : Reg) (rs2 : Reg) (off : BitVec 13) : Statement (.bltu rs1 rs2 off) :=
  of_row 25 _ rfl rfl (by rw [encode]; exact (packB_and_mask ..).trans (by decide))

theorem bgeu (rs1 : Reg) (rs2 : Reg) (off : BitVec 13) : Statement (.bgeu rs1 rs2 off) :=
  of_row 26 _ rfl rfl (by rw [encode]; exact (packB_and_mask ..).trans (by decide))

theorem jal (rd : Reg) (off : BitVec 21) : Statement (.jal rd off) :=
  of_row 27 _ rfl rfl (by rw [encode]; exact (packJ_and_mask ..).trans (by decide))

theorem jalr (rd : Reg) (rs1 : Reg) (imm : BitVec 12) : Statement (.jalr rd rs1 imm) :=
  of_row 28 _ rfl rfl (by rw [encode]; exact (packI_and_mask ..).trans (by decide))

theorem lb (rd : Reg) (rs1 : Reg) (imm : BitVec 12) : Statement (.lb rd rs1 imm) :=
  of_row 29 _ rfl rfl (by rw [encode]; exact (packI_and_mask ..).trans (by decide))

theorem lbu (rd : Reg) (rs1 : Reg) (imm : BitVec 12) : Statement (.lbu rd rs1 imm) :=
  of_row 30 _ rfl rfl (by rw [encode]; exact (packI_and_mask ..).trans (by decide))

theorem lh (rd : Reg) (rs1 : Reg) (imm : BitVec 12) : Statement (.lh rd rs1 imm) :=
  of_row 31 _ rfl rfl (by rw [encode]; exact (packI_and_mask ..).trans (by decide))

theorem lhu (rd : Reg) (rs1 : Reg) (imm : BitVec 12) : Statement (.lhu rd rs1 imm) :=
  of_row 32 _ rfl rfl (by rw [encode]; exact (packI_and_mask ..).trans (by decide))

theorem lw (rd : Reg) (rs1 : Reg) (imm : BitVec 12) : Statement (.lw rd rs1 imm) :=
  of_row 33 _ rfl rfl (by rw [encode]; exact (packI_and_mask ..).trans (by decide))

theorem sb (rs2 : Reg) (rs1 : Reg) (imm : BitVec 12) : Statement (.sb rs2 rs1 imm) :=
  of_row 34 _ rfl rfl (by rw [encode]; exact (packS_and_mask ..).trans (by decide))

theorem sh (rs2 : Reg) (rs1 : Reg) (imm : BitVec 12) : Statement (.sh rs2 rs1 imm) :=
  of_row 35 _ rfl rfl (by rw [encode]; exact (packS_and_mask ..).trans (by decide))

theorem sw (rs2 : Reg) (rs1 : Reg) (imm : BitVec 12) : Statement (.sw rs2 rs1 imm) :=
  of_row 36 _ rfl rfl (by rw [encode]; exact (packS_and_mask ..).trans (by decide))

theorem ebreak : Statement (.ebreak) :=
  of_row 37 _ rfl rfl (by decide)

end Sys2Proof.Laws.TableRow
end

