-- ==== Sys2Proof/Tests/Slice0.lean ====
section
/-! SUPPORT. Small tests. Expected results come from the spec's own vectors (95_test_vectors.md) and from its encodings;
the witnesses show, for each statement with hypotheses, values that meet them, one for each of its clauses. -/

namespace Sys2Proof.Tests

open Sys2Proof.Machine Sys2Proof.Claim

/-! ### A small machine -/

/-- The memory of 95_test_vectors.md section 2.6. -/
def data : Memory := [(0x2000, 0x80), (0x2001, 0xFF), (0x2002, 0x34), (0x2003, 0x12), (0x2004, 0x11), (0x2005, 0x22),
  (0x2006, 0x33), (0x2007, 0x44)]

/-- The eight bytes of `data` alone, as 95_test_vectors.md section 2.6 has `DMEM` in its rows 31 and 32. -/
def smallData : AddrSet := [{ base := 0x2000, size := 8 }]

/-- A running machine with nothing placed at `pc`, every other register `0x11111111`. -/
def bare (imem dmem : AddrSet) (unified : Bool) (pc : Word) (regs : List (Reg × Word)) : State :=
  regs.foldl (fun s p => writeReg s p.1 p.2)
    { x := Vector.replicate 31 0x11111111#32, pc := pc, mem := data, imem := [], halted := false, fault := none,
      plat := { resetPc := 0x00000000#32, imemSet := imem, dmemSet := dmem, unified := unified, initMem := data } }

/-- A running machine with the word `w` placed at `pc`. -/
def machine (dmem : AddrSet) (pc w : Word) (regs : List (Reg × Word)) : State :=
  placeWord (bare AddrSet.all dmem true pc regs) pc w

/-- One step gives a next state of which this is true. -/
def gives (s : State) (f : State → Bool) : Bool :=
  match step s with
  | .next t => f t
  | .fault _ => false
  | .refused _ => false

/-! ### WellFormed refuses an odd offset, and nothing else -/

theorem test_illFormed_beq : WellFormed (.beq 1 2 3) = false := by decide
theorem test_illFormed_bne : WellFormed (.bne 1 2 (-1)) = false := by decide
theorem test_illFormed_blt : WellFormed (.blt 1 2 1) = false := by decide
theorem test_illFormed_bge : WellFormed (.bge 1 2 4095) = false := by decide
theorem test_illFormed_bltu : WellFormed (.bltu 1 2 5) = false := by decide
theorem test_illFormed_bgeu : WellFormed (.bgeu 1 2 7) = false := by decide
theorem test_illFormed_jal : WellFormed (.jal 1 2049) = false := by decide
theorem test_wellFormed_halfAligned : (WellFormed (.beq 1 2 6) && WellFormed (.jal 1 2) && WellFormed (.jalr 1 5 3)) = true := by
  decide

/-! ### Decoding, one word a constructor, grouped as the fields of 30_encoding.md R63 to R68 -/

theorem test_decode_add : decode 0b0000000_00010_00001_000_00011_0110011#32 = .ok (.add 3 1 2) := by decide
theorem test_decode_sub : decode 0b0100000_00010_00001_000_00011_0110011#32 = .ok (.sub 3 1 2) := by decide
theorem test_decode_sll : decode 0b0000000_00010_00001_001_00011_0110011#32 = .ok (.sll 3 1 2) := by decide
theorem test_decode_slt : decode 0b0000000_00010_00001_010_00011_0110011#32 = .ok (.slt 3 1 2) := by decide
theorem test_decode_sltu : decode 0b0000000_00010_00001_011_00011_0110011#32 = .ok (.sltu 3 1 2) := by decide
theorem test_decode_xor : decode 0b0000000_00010_00001_100_00011_0110011#32 = .ok (.xor 3 1 2) := by decide
theorem test_decode_srl : decode 0b0000000_00010_00001_101_00011_0110011#32 = .ok (.srl 3 1 2) := by decide
theorem test_decode_sra : decode 0b0100000_00010_00001_101_00011_0110011#32 = .ok (.sra 3 1 2) := by decide
theorem test_decode_or : decode 0b0000000_00010_00001_110_00011_0110011#32 = .ok (.or 3 1 2) := by decide
theorem test_decode_and : decode 0b0000000_00010_00001_111_00011_0110011#32 = .ok (.and 3 1 2) := by decide
theorem test_decode_addi : decode 0b111111111101_00001_000_00011_0010011#32 = .ok (.addi 3 1 (-3)) := by decide
theorem test_decode_slti : decode 0b111111111101_00001_010_00011_0010011#32 = .ok (.slti 3 1 (-3)) := by decide
theorem test_decode_sltiu : decode 0b111111111111_00001_011_00011_0010011#32 = .ok (.sltiu 3 1 (-1)) := by decide
theorem test_decode_andi : decode 0b000011111111_00001_111_00011_0010011#32 = .ok (.andi 3 1 255) := by decide
theorem test_decode_ori : decode 0b011001111000_00001_110_00011_0010011#32 = .ok (.ori 3 1 1656) := by decide
theorem test_decode_xori : decode 0b111111111111_00001_100_00011_0010011#32 = .ok (.xori 3 1 (-1)) := by decide
theorem test_decode_slli : decode 0b0000000_00100_00001_001_00011_0010011#32 = .ok (.slli 3 1 4) := by decide
theorem test_decode_srli : decode 0b0000000_11111_00001_101_00011_0010011#32 = .ok (.srli 3 1 31) := by decide
theorem test_decode_srai : decode 0b0100000_00100_00001_101_00011_0010011#32 = .ok (.srai 3 1 4) := by decide
theorem test_decode_lui : decode 0b00010010001101000101_01010_0110111#32 = .ok (.lui 10 0x12345) := by decide
theorem test_decode_auipc : decode 0b11111111111111111111_01010_0010111#32 = .ok (.auipc 10 0xFFFFF) := by decide
theorem test_decode_beq : decode 0b1_000000_00010_00001_000_0000_0_1100011#32 = .ok (.beq 1 2 (-4096)) := by decide
theorem test_decode_bne : decode 0b1_111111_00010_00001_001_1110_1_1100011#32 = .ok (.bne 1 2 (-4)) := by decide
theorem test_decode_blt : decode 0b0_000000_00010_00001_100_1000_0_1100011#32 = .ok (.blt 1 2 16) := by decide
theorem test_decode_bge : decode 0b1_111111_00010_00001_101_1100_1_1100011#32 = .ok (.bge 1 2 (-8)) := by decide
theorem test_decode_bltu : decode 0b0_000000_00010_00001_110_0100_0_1100011#32 = .ok (.bltu 1 2 8) := by decide
theorem test_decode_bgeu : decode 0b0_000000_00010_00001_111_0100_0_1100011#32 = .ok (.bgeu 1 2 8) := by decide
theorem test_decode_jal : decode 0b1_1111111101_1_11111111_00001_1101111#32 = .ok (.jal 1 (-6)) := by decide
theorem test_decode_jalr : decode 0b000000000000_00001_000_00001_1100111#32 = .ok (.jalr 1 1 0) := by decide
theorem test_decode_lb : decode 0b000000000000_01000_000_00111_0000011#32 = .ok (.lb 7 8 0) := by decide
theorem test_decode_lbu : decode 0b111111111111_01000_100_00111_0000011#32 = .ok (.lbu 7 8 (-1)) := by decide
theorem test_decode_lh : decode 0b000000000000_01000_001_00111_0000011#32 = .ok (.lh 7 8 0) := by decide
theorem test_decode_lhu : decode 0b000000000000_01000_101_00111_0000011#32 = .ok (.lhu 7 8 0) := by decide
theorem test_decode_lw : decode 0b100000000000_01000_010_00111_0000011#32 = .ok (.lw 7 8 (-2048)) := by decide
theorem test_decode_sb : decode 0b0000000_00111_01000_000_00001_0100011#32 = .ok (.sb 7 8 1) := by decide
theorem test_decode_sh : decode 0b0000000_00111_01000_001_00010_0100011#32 = .ok (.sh 7 8 2) := by decide
theorem test_decode_sw : decode 0b0000000_00111_01000_010_00100_0100011#32 = .ok (.sw 7 8 4) := by decide
theorem test_decode_ebreak : decode 0b000000000001_00000_000_00000_1110011#32 = .ok (.ebreak) := by decide

/-- The undefined words of 95_test_vectors.md section 2.7. -/
theorem test_undefined_words : ([0x00000073, 0x001000F3, 0x00108073, 0x00200073, 0x30200073, 0x10500073, 0x00001073, 0xC0002573,
    0x0FF0000F, 0x0000100F, 0x00000000, 0xFFFFFFFF, 0x00000001, 0x00008082, 0x022081B3, 0x402091B3,
    0x802081B3, 0x0220A1B3, 0x40409193, 0x02009193, 0x8040D193, 0x00009067, 0x0020A463, 0x0020B463,
    0x0000B003, 0x0000E003, 0x0000F003, 0x0020B023, 0x0020C023, 0x0000000B, 0x0000002F, 0x00000007,
    0x0000001B] : List Word).all
    (fun w => match decode w with | .ok _ => false | .error _ => true) = true := by decide

/-- 95_test_vectors.md section 2.2 row 6: a decoded word through the host's question. -/
theorem test_tableWord : decodeTableWord 32 0x00000013 = some (.addi 0 0 0) := by decide

/-! ### One step, at most two a constructor -/

/-- 95_test_vectors.md section 2.1 row 3: `add x3, x1, x2`. -/
theorem test_add_1 : gives (machine AddrSet.all 0x00000100#32 0x002081B3#32 [(1, 0x7FFFFFFF#32), (2, 0x00000001#32)])
    (fun t => t.pc == 0x00000104#32 && readReg t 3 == 0x80000000#32 && t.fault == none) = true := by decide

/-- 95_test_vectors.md section 2.1 row 4: `add x1, x1, x1`. -/
theorem test_add_2 : gives (machine AddrSet.all 0x00000100#32 0x001080B3#32 [(1, 0x40000000#32)])
    (fun t => t.pc == 0x00000104#32 && readReg t 1 == 0x80000000#32 && t.fault == none) = true := by decide

/-- 95_test_vectors.md section 2.1 row 6: `sub x3, x1, x2`. -/
theorem test_sub_1 : gives (machine AddrSet.all 0x00000100#32 0x402081B3#32 [(1, 0x00000005#32), (2, 0x00000007#32)])
    (fun t => t.pc == 0x00000104#32 && readReg t 3 == 0xFFFFFFFE#32 && t.fault == none) = true := by decide

/-- 95_test_vectors.md section 2.1 row 10: `sub x3, x0, x1`. -/
theorem test_sub_2 : gives (machine AddrSet.all 0x00000100#32 0x401001B3#32 [(1, 0x80000000#32)])
    (fun t => t.pc == 0x00000104#32 && readReg t 3 == 0x80000000#32 && t.fault == none) = true := by decide

/-- 95_test_vectors.md section 2.1 row 12: `sll x3, x1, x2`. -/
theorem test_sll_1 : gives (machine AddrSet.all 0x00000100#32 0x002091B3#32 [(1, 0x80000001#32), (2, 0x00000001#32)])
    (fun t => t.pc == 0x00000104#32 && readReg t 3 == 0x00000002#32 && t.fault == none) = true := by decide

/-- 95_test_vectors.md section 2.1 row 13: `sll x3, x1, x2`. -/
theorem test_sll_2 : gives (machine AddrSet.all 0x00000100#32 0x002091B3#32 [(1, 0x000000EF#32), (2, 0x00000024#32)])
    (fun t => t.pc == 0x00000104#32 && readReg t 3 == 0x00000EF0#32 && t.fault == none) = true := by decide

/-- 95_test_vectors.md section 2.1 row 17: `slt x3, x1, x2`. -/
theorem test_slt_1 : gives (machine AddrSet.all 0x00000100#32 0x0020A1B3#32 [(1, 0x00000000#32), (2, 0xFFFFFFFF#32)])
    (fun t => t.pc == 0x00000104#32 && readReg t 3 == 0x00000000#32 && t.fault == none) = true := by decide

/-- 95_test_vectors.md section 2.1 row 18: `slt x3, x1, x2`. -/
theorem test_slt_2 : gives (machine AddrSet.all 0x00000100#32 0x0020A1B3#32 [(1, 0x80000000#32), (2, 0x7FFFFFFF#32)])
    (fun t => t.pc == 0x00000104#32 && readReg t 3 == 0x00000001#32 && t.fault == none) = true := by decide

/-- 95_test_vectors.md section 2.1 row 21: `sltu x3, x1, x2`. -/
theorem test_sltu_1 : gives (machine AddrSet.all 0x00000100#32 0x0020B1B3#32 [(1, 0x00000000#32), (2, 0xFFFFFFFF#32)])
    (fun t => t.pc == 0x00000104#32 && readReg t 3 == 0x00000001#32 && t.fault == none) = true := by decide

/-- 95_test_vectors.md section 2.1 row 22: `sltu x3, x1, x2`. -/
theorem test_sltu_2 : gives (machine AddrSet.all 0x00000100#32 0x0020B1B3#32 [(1, 0x80000000#32), (2, 0x7FFFFFFF#32)])
    (fun t => t.pc == 0x00000104#32 && readReg t 3 == 0x00000000#32 && t.fault == none) = true := by decide

/-- 95_test_vectors.md section 2.1 row 25: `xor x3, x1, x2`. -/
theorem test_xor_1 : gives (machine AddrSet.all 0x00000100#32 0x0020C1B3#32 [(1, 0xFF00FF00#32), (2, 0x0FF00FF0#32)])
    (fun t => t.pc == 0x00000104#32 && readReg t 3 == 0xF0F0F0F0#32 && t.fault == none) = true := by decide

/-- 95_test_vectors.md section 2.1 row 27: `xor x3, x1, x2`. -/
theorem test_xor_2 : gives (machine AddrSet.all 0x00000100#32 0x0020C1B3#32 [(1, 0x12345678#32), (2, 0xFFFFFFFF#32)])
    (fun t => t.pc == 0x00000104#32 && readReg t 3 == 0xEDCBA987#32 && t.fault == none) = true := by decide

/-- 95_test_vectors.md section 2.1 row 29: `srl x3, x1, x2`. -/
theorem test_srl_1 : gives (machine AddrSet.all 0x00000100#32 0x0020D1B3#32 [(1, 0xF0000000#32), (2, 0x00000004#32)])
    (fun t => t.pc == 0x00000104#32 && readReg t 3 == 0x0F000000#32 && t.fault == none) = true := by decide

/-- 95_test_vectors.md section 2.1 row 30: `srl x3, x1, x2`. -/
theorem test_srl_2 : gives (machine AddrSet.all 0x00000100#32 0x0020D1B3#32 [(1, 0xF0000000#32), (2, 0x00000020#32)])
    (fun t => t.pc == 0x00000104#32 && readReg t 3 == 0xF0000000#32 && t.fault == none) = true := by decide

/-- 95_test_vectors.md section 2.1 row 32: `sra x3, x1, x2`. -/
theorem test_sra_1 : gives (machine AddrSet.all 0x00000100#32 0x4020D1B3#32 [(1, 0xF0000000#32), (2, 0x00000004#32)])
    (fun t => t.pc == 0x00000104#32 && readReg t 3 == 0xFF000000#32 && t.fault == none) = true := by decide

/-- 95_test_vectors.md section 2.1 row 34: `sra x3, x1, x2`. -/
theorem test_sra_2 : gives (machine AddrSet.all 0x00000100#32 0x4020D1B3#32 [(1, 0x87654321#32), (2, 0x00000F24#32)])
    (fun t => t.pc == 0x00000104#32 && readReg t 3 == 0xF8765432#32 && t.fault == none) = true := by decide

/-- 95_test_vectors.md section 2.1 row 35: `or x3, x1, x2`. -/
theorem test_or_1 : gives (machine AddrSet.all 0x00000100#32 0x0020E1B3#32 [(1, 0xFF00FF00#32), (2, 0x0FF00FF0#32)])
    (fun t => t.pc == 0x00000104#32 && readReg t 3 == 0xFFF0FFF0#32 && t.fault == none) = true := by decide

/-- 95_test_vectors.md section 2.1 row 36: `or x3, x1, x0`. -/
theorem test_or_2 : gives (machine AddrSet.all 0x00000100#32 0x0000E1B3#32 [(1, 0x12345678#32)])
    (fun t => t.pc == 0x00000104#32 && readReg t 3 == 0x12345678#32 && t.fault == none) = true := by decide

/-- 95_test_vectors.md section 2.1 row 37: `and x3, x1, x2`. -/
theorem test_and_1 : gives (machine AddrSet.all 0x00000100#32 0x0020F1B3#32 [(1, 0xFF00FF00#32), (2, 0x0FF00FF0#32)])
    (fun t => t.pc == 0x00000104#32 && readReg t 3 == 0x0F000F00#32 && t.fault == none) = true := by decide

/-- 95_test_vectors.md section 2.1 row 38: `and x3, x1, x0`. -/
theorem test_and_2 : gives (machine AddrSet.all 0x00000100#32 0x0000F1B3#32 [(1, 0x12345678#32)])
    (fun t => t.pc == 0x00000104#32 && readReg t 3 == 0x00000000#32 && t.fault == none) = true := by decide

/-- 95_test_vectors.md section 2.2 row 1: `addi x3, x1, -3`. -/
theorem test_addi_1 : gives (machine AddrSet.all 0x00000100#32 0xFFD08193#32 [(1, 0x00000005#32)])
    (fun t => t.pc == 0x00000104#32 && readReg t 3 == 0x00000002#32 && t.fault == none) = true := by decide

/-- 95_test_vectors.md section 2.2 row 5: `addi x3, x1, 1`. -/
theorem test_addi_2 : gives (machine AddrSet.all 0x00000100#32 0x00108193#32 [(1, 0x7FFFFFFF#32)])
    (fun t => t.pc == 0x00000104#32 && readReg t 3 == 0x80000000#32 && t.fault == none) = true := by decide

/-- 95_test_vectors.md section 2.2 row 10: `slti x3, x1, -3`. -/
theorem test_slti_1 : gives (machine AddrSet.all 0x00000100#32 0xFFD0A193#32 [(1, 0xFFFFFFFB#32)])
    (fun t => t.pc == 0x00000104#32 && readReg t 3 == 0x00000001#32 && t.fault == none) = true := by decide

/-- 95_test_vectors.md section 2.2 row 12: `slti x3, x1, 2047`. -/
theorem test_slti_2 : gives (machine AddrSet.all 0x00000100#32 0x7FF0A193#32 [(1, 0x7FFFFFFF#32)])
    (fun t => t.pc == 0x00000104#32 && readReg t 3 == 0x00000000#32 && t.fault == none) = true := by decide

/-- 95_test_vectors.md section 2.2 row 14: `sltiu x3, x1, -1`. -/
theorem test_sltiu_1 : gives (machine AddrSet.all 0x00000100#32 0xFFF0B193#32 [(1, 0x00000000#32)])
    (fun t => t.pc == 0x00000104#32 && readReg t 3 == 0x00000001#32 && t.fault == none) = true := by decide

/-- 95_test_vectors.md section 2.2 row 20: `sltiu x3, x1, 2047`. -/
theorem test_sltiu_2 : gives (machine AddrSet.all 0x00000100#32 0x7FF0B193#32 [(1, 0x80000000#32)])
    (fun t => t.pc == 0x00000104#32 && readReg t 3 == 0x00000000#32 && t.fault == none) = true := by decide

/-- 95_test_vectors.md section 2.2 row 21: `andi x3, x1, 0xFF`. -/
theorem test_andi_1 : gives (machine AddrSet.all 0x00000100#32 0x0FF0F193#32 [(1, 0x12345678#32)])
    (fun t => t.pc == 0x00000104#32 && readReg t 3 == 0x00000078#32 && t.fault == none) = true := by decide

/-- 95_test_vectors.md section 2.2 row 23: `andi x3, x1, -256`. -/
theorem test_andi_2 : gives (machine AddrSet.all 0x00000100#32 0xF000F193#32 [(1, 0x12345678#32)])
    (fun t => t.pc == 0x00000104#32 && readReg t 3 == 0x12345600#32 && t.fault == none) = true := by decide

/-- 95_test_vectors.md section 2.2 row 24: `ori x3, x1, 0x678`. -/
theorem test_ori_1 : gives (machine AddrSet.all 0x00000100#32 0x6780E193#32 [(1, 0x12345000#32)])
    (fun t => t.pc == 0x00000104#32 && readReg t 3 == 0x12345678#32 && t.fault == none) = true := by decide

/-- 95_test_vectors.md section 2.2 row 26: `ori x3, x1, -2048`. -/
theorem test_ori_2 : gives (machine AddrSet.all 0x00000100#32 0x8000E193#32 [(1, 0x00000001#32)])
    (fun t => t.pc == 0x00000104#32 && readReg t 3 == 0xFFFFF801#32 && t.fault == none) = true := by decide

/-- 95_test_vectors.md section 2.2 row 27: `xori x3, x1, -1`. -/
theorem test_xori_1 : gives (machine AddrSet.all 0x00000100#32 0xFFF0C193#32 [(1, 0x12345678#32)])
    (fun t => t.pc == 0x00000104#32 && readReg t 3 == 0xEDCBA987#32 && t.fault == none) = true := by decide

/-- 95_test_vectors.md section 2.2 row 28: `xori x3, x1, 0x555`. -/
theorem test_xori_2 : gives (machine AddrSet.all 0x00000100#32 0x5550C193#32 [(1, 0x00000FFF#32)])
    (fun t => t.pc == 0x00000104#32 && readReg t 3 == 0x00000AAA#32 && t.fault == none) = true := by decide

/-- 95_test_vectors.md section 2.2 row 30: `slli x3, x1, 4`. -/
theorem test_slli_1 : gives (machine AddrSet.all 0x00000100#32 0x00409193#32 [(1, 0xF2345678#32)])
    (fun t => t.pc == 0x00000104#32 && readReg t 3 == 0x23456780#32 && t.fault == none) = true := by decide

/-- 95_test_vectors.md section 2.2 row 31: `slli x3, x1, 31`. -/
theorem test_slli_2 : gives (machine AddrSet.all 0x00000100#32 0x01F09193#32 [(1, 0x00000003#32)])
    (fun t => t.pc == 0x00000104#32 && readReg t 3 == 0x80000000#32 && t.fault == none) = true := by decide

/-- 95_test_vectors.md section 2.2 row 32: `srli x3, x1, 31`. -/
theorem test_srli_1 : gives (machine AddrSet.all 0x00000100#32 0x01F0D193#32 [(1, 0x80000000#32)])
    (fun t => t.pc == 0x00000104#32 && readReg t 3 == 0x00000001#32 && t.fault == none) = true := by decide

/-- 95_test_vectors.md section 2.2 row 33: `srli x3, x1, 4`. -/
theorem test_srli_2 : gives (machine AddrSet.all 0x00000100#32 0x0040D193#32 [(1, 0x87654321#32)])
    (fun t => t.pc == 0x00000104#32 && readReg t 3 == 0x08765432#32 && t.fault == none) = true := by decide

/-- 95_test_vectors.md section 2.2 row 36: `srai x3, x1, 4`. -/
theorem test_srai_1 : gives (machine AddrSet.all 0x00000100#32 0x4040D193#32 [(1, 0x87654321#32)])
    (fun t => t.pc == 0x00000104#32 && readReg t 3 == 0xF8765432#32 && t.fault == none) = true := by decide

/-- 95_test_vectors.md section 2.2 row 37: `srai x3, x1, 4`. -/
theorem test_srai_2 : gives (machine AddrSet.all 0x00000100#32 0x4040D193#32 [(1, 0x07654321#32)])
    (fun t => t.pc == 0x00000104#32 && readReg t 3 == 0x00765432#32 && t.fault == none) = true := by decide

/-- 95_test_vectors.md section 2.3 row 1: `lui x10, 0x12345`. -/
theorem test_lui_1 : gives (machine AddrSet.all 0x00000100#32 0x12345537#32 [])
    (fun t => t.pc == 0x00000104#32 && readReg t 10 == 0x12345000#32 && t.fault == none) = true := by decide

/-- 95_test_vectors.md section 2.3 row 5: `lui x0, 0x12345`. -/
theorem test_lui_2 : gives (machine AddrSet.all 0x00000100#32 0x12345037#32 [])
    (fun t => t.pc == 0x00000104#32 && t.fault == none) = true := by decide

/-- 95_test_vectors.md section 2.3 row 8: `auipc x10, 0xFFFFF`. -/
theorem test_auipc_1 : gives (machine AddrSet.all 0x00001000#32 0xFFFFF517#32 [])
    (fun t => t.pc == 0x00001004#32 && readReg t 10 == 0x00000000#32 && t.fault == none) = true := by decide

/-- 95_test_vectors.md section 2.3 row 10: `auipc x10, 0x12345`. -/
theorem test_auipc_2 : gives (machine AddrSet.all 0x00000ABC#32 0x12345517#32 [])
    (fun t => t.pc == 0x00000AC0#32 && readReg t 10 == 0x12345ABC#32 && t.fault == none) = true := by decide

/-- 95_test_vectors.md section 2.4 row 22: `beq x1, x2, -4096`. -/
theorem test_beq_1 : gives (machine AddrSet.all 0x00002000#32 0x80208063#32 [(1, 0x00000000#32), (2, 0x00000000#32)])
    (fun t => t.pc == 0x00001000#32 && t.fault == none) = true := by decide

/-- 95_test_vectors.md section 2.4 row 19: `beq x0, x0, 6`. -/
theorem test_beq_2 : gives (machine AddrSet.all 0x00000100#32 0x00000363#32 [])
    (fun t => t.pc == 0x00000100#32 && t.fault == some (.instructionAddressMisaligned 0x00000106#32)) = true := by decide

/-- 95_test_vectors.md section 2.4 row 5: `bne x1, x2, -4`. -/
theorem test_bne_1 : gives (machine AddrSet.all 0x00000100#32 0xFE209EE3#32 [(1, 0x00000001#32), (2, 0x00000000#32)])
    (fun t => t.pc == 0x000000FC#32 && t.fault == none) = true := by decide

/-- 95_test_vectors.md section 2.4 row 20: `bne x0, x0, 6`. -/
theorem test_bne_2 : gives (machine AddrSet.all 0x00000100#32 0x00001363#32 [])
    (fun t => t.pc == 0x00000104#32 && t.fault == none) = true := by decide

/-- 95_test_vectors.md section 2.4 row 8: `blt x1, x2, 16`. -/
theorem test_blt_1 : gives (machine AddrSet.all 0x00000100#32 0x0020C863#32 [(1, 0x00000000#32), (2, 0xFFFFFFFF#32)])
    (fun t => t.pc == 0x00000104#32 && t.fault == none) = true := by decide

/-- 95_test_vectors.md section 2.4 row 21: `blt x1, x2, -14`. -/
theorem test_blt_2 : gives (machine AddrSet.all 0x00000100#32 0xFE20C9E3#32 [(1, 0xFFFFFFFF#32), (2, 0x00000000#32)])
    (fun t => t.pc == 0x00000100#32 && t.fault == some (.instructionAddressMisaligned 0x000000F2#32) &&
      readReg t 1 == 0xFFFFFFFF#32 && readReg t 2 == 0x00000000#32) = true := by decide

/-- 95_test_vectors.md section 2.4 row 10: `bge x1, x2, -8`. -/
theorem test_bge_1 : gives (machine AddrSet.all 0x00000100#32 0xFE20DCE3#32 [(1, 0x00000000#32), (2, 0xFFFFFFFF#32)])
    (fun t => t.pc == 0x000000F8#32 && t.fault == none) = true := by decide

/-- 95_test_vectors.md section 2.4 row 12: `bge x1, x2, 12`. -/
theorem test_bge_2 : gives (machine AddrSet.all 0x00000100#32 0x0020D663#32 [(1, 0x80000000#32), (2, 0x00000000#32)])
    (fun t => t.pc == 0x00000104#32 && t.fault == none) = true := by decide

/-- 95_test_vectors.md section 2.4 row 13: `bltu x1, x2, 8`. -/
theorem test_bltu_1 : gives (machine AddrSet.all 0x00000100#32 0x0020E463#32 [(1, 0x00000001#32), (2, 0xFFFFFFFF#32)])
    (fun t => t.pc == 0x00000108#32 && t.fault == none) = true := by decide

/-- 95_test_vectors.md section 2.4 row 14: `bltu x1, x2, 8`. -/
theorem test_bltu_2 : gives (machine AddrSet.all 0x00000100#32 0x0020E463#32 [(1, 0xFFFFFFFF#32), (2, 0x00000001#32)])
    (fun t => t.pc == 0x00000104#32 && t.fault == none) = true := by decide

/-- 95_test_vectors.md section 2.4 row 25: `bgeu x1, x2, 8`. -/
theorem test_bgeu_1 : gives (machine AddrSet.all 0xFFFFFFFC#32 0x0020F463#32 [(1, 0x00000000#32), (2, 0x00000000#32)])
    (fun t => t.pc == 0x00000004#32 && t.fault == none) = true := by decide

/-- 95_test_vectors.md section 2.4 row 16: `bgeu x1, x2, 8`. -/
theorem test_bgeu_2 : gives (machine AddrSet.all 0x00000100#32 0x0020F463#32 [(1, 0xFFFFFFFF#32), (2, 0x00000001#32)])
    (fun t => t.pc == 0x00000108#32 && t.fault == none) = true := by decide

/-- 95_test_vectors.md section 2.5 row 8: `jal x1, -6`. -/
theorem test_jal_1 : gives (machine AddrSet.all 0x00000100#32 0xFFBFF0EF#32 [(1, 0x11111111#32)])
    (fun t => t.pc == 0x00000100#32 && t.fault == some (.instructionAddressMisaligned 0x000000FA#32) &&
      readReg t 1 == 0x11111111#32) = true := by decide

/-- 95_test_vectors.md section 2.5 row 9: `jal x1, 8`. -/
theorem test_jal_2 : gives (machine AddrSet.all 0xFFFFFFFC#32 0x008000EF#32 [])
    (fun t => t.pc == 0x00000004#32 && readReg t 1 == 0x00000000#32 && t.fault == none) = true := by decide

/-- 95_test_vectors.md section 2.5 row 12: `jalr x1, 0(x1)`. -/
theorem test_jalr_1 : gives (machine AddrSet.all 0x00000100#32 0x000080E7#32 [(1, 0x00002000#32)])
    (fun t => t.pc == 0x00002000#32 && readReg t 1 == 0x00000104#32 && t.fault == none) = true := by decide

/-- 95_test_vectors.md section 2.5 row 15: `jalr x1, 3(x5)`. -/
theorem test_jalr_2 : gives (machine AddrSet.all 0x00000100#32 0x003280E7#32 [(5, 0x00002000#32), (1, 0x11111111#32)])
    (fun t => t.pc == 0x00000100#32 && t.fault == some (.instructionAddressMisaligned 0x00002002#32) &&
      readReg t 5 == 0x00002000#32 && readReg t 1 == 0x11111111#32) = true := by decide

/-- 95_test_vectors.md section 2.6 row 1: `lb x7, 0(x8)`. -/
theorem test_lb_1 : gives (machine AddrSet.all 0x00000100#32 0x00040383#32 [(8, 0x00002000#32)])
    (fun t => t.pc == 0x00000104#32 && readReg t 7 == 0xFFFFFF80#32 && t.fault == none) = true := by decide

/-- 95_test_vectors.md section 2.6 row 4: `lb x7, -1(x8)`. -/
theorem test_lb_2 : gives (machine AddrSet.all 0x00000100#32 0xFFF40383#32 [(8, 0x00002002#32)])
    (fun t => t.pc == 0x00000104#32 && readReg t 7 == 0xFFFFFFFF#32 && t.fault == none) = true := by decide

/-- 95_test_vectors.md section 2.6 row 29: `lbu x7, -1(x8)`. -/
theorem test_lbu_1 : gives (machine AddrSet.all 0x00000100#32 0xFFF44383#32 [(8, 0x00002001#32)])
    (fun t => t.pc == 0x00000104#32 && readReg t 7 == 0x00000080#32 && t.fault == none) = true := by decide

/-- 95_test_vectors.md section 2.6 row 5: `lbu x7, 3(x8)`. -/
theorem test_lbu_2 : gives (machine AddrSet.all 0x00000100#32 0x00344383#32 [(8, 0x00002000#32)])
    (fun t => t.pc == 0x00000104#32 && readReg t 7 == 0x00000012#32 && t.fault == none) = true := by decide

/-- 95_test_vectors.md section 2.6 row 6: `lh x7, 0(x8)`. -/
theorem test_lh_1 : gives (machine AddrSet.all 0x00000100#32 0x00041383#32 [(8, 0x00002000#32)])
    (fun t => t.pc == 0x00000104#32 && readReg t 7 == 0xFFFFFF80#32 && t.fault == none) = true := by decide

/-- 95_test_vectors.md section 2.6 row 17: `lh x7, 1(x8)`. -/
theorem test_lh_2 : gives (machine AddrSet.all 0x00000100#32 0x00141383#32 [(8, 0x00002000#32), (7, 0x11111111#32)])
    (fun t => t.pc == 0x00000100#32 && t.fault == some (.loadAddressMisaligned 0x00002001#32) &&
      readReg t 8 == 0x00002000#32 && readReg t 7 == 0x11111111#32) = true := by decide

/-- 95_test_vectors.md section 2.6 row 7: `lhu x7, 0(x8)`. -/
theorem test_lhu_1 : gives (machine AddrSet.all 0x00000100#32 0x00045383#32 [(8, 0x00002000#32)])
    (fun t => t.pc == 0x00000104#32 && readReg t 7 == 0x0000FF80#32 && t.fault == none) = true := by decide

/-- 95_test_vectors.md section 2.6 row 9: `lhu x7, 6(x8)`. -/
theorem test_lhu_2 : gives (machine AddrSet.all 0x00000100#32 0x00645383#32 [(8, 0x00002000#32)])
    (fun t => t.pc == 0x00000104#32 && readReg t 7 == 0x00004433#32 && t.fault == none) = true := by decide

/-- 95_test_vectors.md section 2.6 row 16: `lw x7, -2048(x8)`. -/
theorem test_lw_1 : gives (machine AddrSet.all 0x00000100#32 0x80042383#32 [(8, 0x00002800#32)])
    (fun t => t.pc == 0x00000104#32 && readReg t 7 == 0x1234FF80#32 && t.fault == none) = true := by decide

/-- 95_test_vectors.md section 2.6 row 31: `lw x7, 8(x8)`. -/
theorem test_lw_2 : gives (machine smallData 0x00000100#32 0x00842383#32 [(8, 0x00002000#32), (7, 0x11111111#32)])
    (fun t => t.pc == 0x00000100#32 && t.fault == some (.loadAccessFault 0x00002008#32) && readReg t 8 == 0x00002000#32 &&
      readReg t 7 == 0x11111111#32) = true := by decide

/-- 95_test_vectors.md section 2.6 row 28: `sb x7, 1(x8)`. -/
theorem test_sb_1 : gives (machine AddrSet.all 0x00000100#32 0x007400A3#32 [(8, 0xFFFFFFFF#32), (7, 0x0000005A#32)])
    (fun t => t.pc == 0x00000104#32 && Memory.get? t.mem 0x00000000 == some 0x5A#8 && t.fault == none) = true := by decide

/-- 95_test_vectors.md section 2.6 row 20: `sb x7, 3(x8)`. -/
theorem test_sb_2 : gives (machine AddrSet.all 0x00000100#32 0x007401A3#32 [(8, 0x00002000#32), (7, 0xAABBCCDD#32)])
    (fun t => t.pc == 0x00000104#32 && Memory.get? t.mem 0x00002003 == some 0xDD#8 && t.fault == none) = true := by decide

/-- 95_test_vectors.md section 2.6 row 22: `sh x7, 2(x8)`. -/
theorem test_sh_1 : gives (machine AddrSet.all 0x00000100#32 0x00741123#32 [(8, 0x00002000#32), (7, 0xAABBCCDD#32)])
    (fun t => t.pc == 0x00000104#32 && Memory.get? t.mem 0x00002002 == some 0xDD#8 &&
      Memory.get? t.mem 0x00002003 == some 0xCC#8 && t.fault == none) = true := by decide

/-- 95_test_vectors.md section 2.6 row 26: `sh x7, 1(x8)`. -/
theorem test_sh_2 : gives (machine AddrSet.all 0x00000100#32 0x007410A3#32 [(8, 0x00002000#32), (7, 0xAABBCCDD#32)])
    (fun t => t.pc == 0x00000100#32 && t.fault == some (.storeAddressMisaligned 0x00002001#32) &&
      readReg t 8 == 0x00002000#32 && readReg t 7 == 0xAABBCCDD#32) = true := by decide

/-- 95_test_vectors.md section 2.6 row 23: `sw x7, 4(x8)`. -/
theorem test_sw_1 : gives (machine AddrSet.all 0x00000100#32 0x00742223#32 [(8, 0x00002000#32), (7, 0xAABBCCDD#32)])
    (fun t => t.pc == 0x00000104#32 && Memory.get? t.mem 0x00002004 == some 0xDD#8 &&
      Memory.get? t.mem 0x00002005 == some 0xCC#8 && Memory.get? t.mem 0x00002006 == some 0xBB#8 &&
      Memory.get? t.mem 0x00002007 == some 0xAA#8 && t.fault == none) = true := by decide

/-- 95_test_vectors.md section 2.6 row 25: `sw x8, 0(x8)`. -/
theorem test_sw_2 : gives (machine AddrSet.all 0x00000100#32 0x00842023#32 [(8, 0x00002004#32)])
    (fun t => t.pc == 0x00000104#32 && Memory.get? t.mem 0x00002004 == some 0x04#8 &&
      Memory.get? t.mem 0x00002005 == some 0x20#8 && Memory.get? t.mem 0x00002006 == some 0x00#8 &&
      Memory.get? t.mem 0x00002007 == some 0x00#8 && t.fault == none) = true := by decide

/-- 95_test_vectors.md section 2.7 row 1: `ebreak`. -/
theorem test_ebreak_1 : gives (machine AddrSet.all 0x00000100#32 0x00100073#32 [])
    (fun t => t.pc == 0x00000100#32 && t.halted && t.fault == none) = true := by decide

/-- 95_test_vectors.md section 2.7 row 12: the word of zeros. -/
theorem test_zero_word : gives (machine AddrSet.all 0x00000100#32 0x00000000#32 [])
    (fun t => t.pc == 0x00000100#32 && !t.halted && t.fault == some (.illegalInstruction 0x00000100#32 0x00000000#32)) = true := by
  decide

/-- 95_test_vectors.md row F1: a fetch outside `IMEM` comes before an undefined word. -/
theorem test_priority_fetch : gives (placeWord (bare smallData AddrSet.all true 0x00000100#32 []) 0x00000100#32 0#32)
    (fun t => t.fault == some (.fetchAccessFault 0x00000100#32)) = true := by decide

/-- 95_test_vectors.md row F2: misaligned comes before access. -/
theorem test_priority_misaligned :
    gives (machine [{ base := 0, size := 0x1000 }] 0x00000100#32 0x00042383#32 [(8, 0x00002001#32)])
      (fun t => t.fault == some (.loadAddressMisaligned 0x00002001#32)) = true := by decide

/-- 20_memory.md R39: nothing is placed at reset, so nothing is fetched (log entry 3). -/
theorem test_reset_fetches_nothing : step State.reset = .refused .unwrittenFetch := by rfl

/-! ### Witnesses: values that meet the hypotheses of each statement, one for each clause -/

/-- A machine whose code and data are small ranges, with the word of `add x3, x1, x2` at `pc`. -/
def here : State :=
  placeWord (bare [{ base := 0x100, size := 8 }] smallData false 0x00000100#32
    [(1, 5#32), (2, 0xFFFFFFFF#32), (4, 5#32), (8, 0x00002000#32), (9, 0x00002004#32)]) 0x00000100#32 0x002081B3#32

theorem here_memForm : Memory.wf here.mem := by decide
theorem here_imemForm : Memory.wf here.imem := by decide
theorem here_platForm : Platform.wf here.plat := by decide

theorem here_inv : Inv here where
  pcAligned := by decide
  memForm := here_memForm
  imemForm := here_imemForm
  platForm := here_platForm
  notBoth := by decide
  faultFits := fun r h => by cases h

theorem test_witness_AddImmediate : IsSignExtended (0x800#12) 0xFFFFF800#32 := by unfold IsSignExtended; decide
theorem test_witness_CompareImmediates : IsSignExtended (0xFFF#12) 0xFFFFFFFF#32 := by unfold IsSignExtended; decide
theorem test_witness_BitwiseImmediates : IsSignExtended (0x7FF#12) 0x000007FF#32 := by unfold IsSignExtended; decide
theorem test_witness_ShiftImmediates : (0b0100000#7 ∉ [0b0000000#7]) ∧ (0b0000001#7 ∉ [0b0000000#7, 0b0100000#7]) := by decide
theorem test_witness_ArithmeticShiftIsFloorDivision : (31#5 : Reg) ≠ 0#5 := by decide
theorem test_witness_UpperImmediates : IsUpper 0xFFFFF#20 0xFFFFF000#32 := by unfold IsUpper; decide
theorem test_witness_LuiThenAddiBuildsConstant : (10#5 : Reg) ≠ 0#5 := by decide
theorem test_witness_ZeroDestinationDiscardsTheResultAlone :
    ∃ t, exec (setDest (.add 3 1 2) 3) here = .next t ∧ readReg t 3 = 4#32 := ⟨_, rfl, by decide⟩
theorem test_witness_OnlyTheDestinationIsWritten :
    ∃ t, exec (.add 3 1 2) here = .next t ∧ destReg (.add 3 1 2) ≠ some 1 := ⟨_, rfl, by decide⟩
theorem test_witness_OnlyTheSourcesAreRead :
    ∃ t, exec (.add 3 1 2) here = .next t ∧ (3 : Reg) ∉ sourceRegs (.add 3 1 2) := ⟨_, rfl, by decide⟩

/-- The offset 8 and the target it gives. -/
theorem witness_aligned : IsSignExtended (8#13) 8#32 ∧ IsSum here.pc 8#32 0x00000108#32 ∧ (0x00000108#32).toNat % 4 = 0 := by
  unfold IsSignExtended IsSum; decide
/-- The offset -6 and the target it gives. -/
theorem witness_misaligned :
    IsSignExtended (0x1FFA#13) 0xFFFFFFFA#32 ∧ IsSum here.pc 0xFFFFFFFA#32 0x000000FA#32 ∧ (0x000000FA#32).toNat % 4 ≠ 0 := by
  unfold IsSignExtended IsSum; decide
theorem test_witness_EqualityBranches :
    (8#13).getLsbD 0 = false ∧ readReg here 1 = readReg here 4 ∧ ¬readReg here 1 = readReg here 2 ∧
      ¬readReg here 1 ≠ readReg here 4 ∧ readReg here 1 ≠ readReg here 2 := by decide
theorem test_witness_SignedBranches :
    signed (readReg here 2) < signed (readReg here 1) ∧ ¬signed (readReg here 1) < signed (readReg here 4) ∧
      signed (readReg here 1) ≥ signed (readReg here 4) ∧ ¬signed (readReg here 2) ≥ signed (readReg here 1) := by
  unfold signed; decide
theorem test_witness_UnsignedBranches :
    (readReg here 1).toNat < (readReg here 2).toNat ∧ ¬(readReg here 1).toNat < (readReg here 4).toNat ∧
      (readReg here 1).toNat ≥ (readReg here 4).toNat ∧ ¬(readReg here 1).toNat ≥ (readReg here 2).toNat := by decide
theorem test_witness_MisalignedBranchChangesNothingElse :
    (branchTarget here 6).toNat % 4 ≠ 0 ∧
      transferTarget (.beq 1 4 6) here = some (branchTarget here 6) ∧ transferTarget (.beq 1 2 6) here = none ∧
      transferTarget (.bne 1 2 6) here = some (branchTarget here 6) ∧ transferTarget (.bne 1 4 6) here = none ∧
      transferTarget (.blt 2 1 6) here = some (branchTarget here 6) ∧ transferTarget (.blt 1 4 6) here = none ∧
      transferTarget (.bge 1 4 6) here = some (branchTarget here 6) ∧ transferTarget (.bge 2 1 6) here = none ∧
      transferTarget (.bltu 1 2 6) here = some (branchTarget here 6) ∧ transferTarget (.bltu 1 4 6) here = none ∧
      transferTarget (.bgeu 1 4 6) here = some (branchTarget here 6) ∧ transferTarget (.bgeu 1 2 6) here = none := by decide
theorem test_witness_JumpAndLink :
    (IsSignExtended (0xFFFFC#21) 0x000FFFFC#32 ∧ IsSum here.pc 0x000FFFFC#32 0x001000FC#32 ∧
      (0xFFFFC#21).getLsbD 0 = false ∧ (0x001000FC#32).toNat % 4 = 0) ∧
    (IsSignExtended (0x100002#21) 0xFFF00002#32 ∧ IsSum here.pc 0xFFF00002#32 0xFFF00102#32 ∧
      (0xFFF00102#32).toNat % 4 ≠ 0) := by unfold IsSignExtended IsSum; decide
theorem test_witness_JumpAndLinkRegister :
    (IsSignExtended (0x001#12) 1#32 ∧ IsSum (readReg here 8) 1#32 0x00002001#32 ∧
      (0x00002000#32).toNat = (0x00002001#32).toNat / 2 * 2 ∧ (0x00002001#32).getLsbD 1 = false) ∧
    (IsSignExtended (0xFFF#12) 0xFFFFFFFF#32 ∧ IsSum (readReg here 8) 0xFFFFFFFF#32 0x00001FFF#32 ∧
      (0x00001FFE#32).toNat = (0x00001FFF#32).toNat / 2 * 2 ∧ (0x00001FFF#32).getLsbD 1 = true) := by
  unfold IsSignExtended IsSum; decide
theorem test_witness_ProgramCounterAdvances :
    Running here ∧ (∃ t, exec (.jal 1 8) here = .next t ∧ t.fault = none ∧ transferTarget (.jal 1 8) here = some 0x00000108#32) ∧
    (∃ t, exec (.add 3 1 2) here = .next t ∧ t.fault = none ∧ transferTarget (.add 3 1 2) here = none) ∧
    (∃ t, exec .ebreak here = .next t ∧ t.fault = none) :=
  ⟨by decide, ⟨_, rfl, by decide, by decide⟩, ⟨_, rfl, by decide, by decide⟩, ⟨_, rfl, by decide⟩⟩
theorem test_witness_JumpToItselfRunsForever :
    (Running (machine AddrSet.all 0x00000100#32 0x0000006F#32 []) ∧
      fetchInstr (machine AddrSet.all 0x00000100#32 0x0000006F#32 []) = .runs (.jal 0#5 0#21)) ∧
    (Running (machine AddrSet.all 0x00000100#32 0x00108063#32 []) ∧
      fetchInstr (machine AddrSet.all 0x00000100#32 0x00108063#32 []) = .runs (.beq 1 1 0#13)) := by decide
theorem test_witness_OnlyEbreakHalts :
    (∃ t, step here = .next t ∧ t.halted = false) ∧
      ∃ t, step (machine AddrSet.all 0x00000100#32 0x00100073#32 []) = .next t ∧ t.halted = true :=
  ⟨⟨_, rfl, by decide⟩, ⟨_, rfl, by decide⟩⟩

theorem test_witness_LoadsReadMemory :
    ((loadAddr here 8 7).toNat % 1 = 0 ∧ AllMember here.plat.dmemSet (loadAddr here 8 7) 1) ∧
    ((loadAddr here 8 6).toNat % 2 = 0 ∧ AllMember here.plat.dmemSet (loadAddr here 8 6) 2) ∧
    ((loadAddr here 8 4).toNat % 4 = 0 ∧ AllMember here.plat.dmemSet (loadAddr here 8 4) 4) := by unfold AllMember; decide
theorem test_witness_LoadsFault :
    ((loadAddr here 8 8).toNat % 1 = 0 ∧ ¬AllMember here.plat.dmemSet (loadAddr here 8 8) 1) ∧
    (loadAddr here 8 7).toNat % 2 ≠ 0 ∧
    ((loadAddr here 8 8).toNat % 2 = 0 ∧ ¬AllMember here.plat.dmemSet (loadAddr here 8 8) 2) ∧
    (loadAddr here 8 6).toNat % 4 ≠ 0 ∧
    ((loadAddr here 8 (-4)).toNat % 4 = 0 ∧ ¬AllMember here.plat.dmemSet (loadAddr here 8 (-4)) 4) := by unfold AllMember; decide
theorem test_witness_StoresWriteMemory :
    ((storeAddr here 8 7).toNat % 1 = 0 ∧ AllMember here.plat.dmemSet (storeAddr here 8 7) 1) ∧
    ((storeAddr here 8 6).toNat % 2 = 0 ∧ AllMember here.plat.dmemSet (storeAddr here 8 6) 2) ∧
    ((storeAddr here 8 4).toNat % 4 = 0 ∧ AllMember here.plat.dmemSet (storeAddr here 8 4) 4) := by unfold AllMember; decide
theorem test_witness_StoresFault :
    ((storeAddr here 8 8).toNat % 1 = 0 ∧ ¬AllMember here.plat.dmemSet (storeAddr here 8 8) 1) ∧
    (storeAddr here 8 7).toNat % 2 ≠ 0 ∧
    ((storeAddr here 8 8).toNat % 2 = 0 ∧ ¬AllMember here.plat.dmemSet (storeAddr here 8 8) 2) ∧
    (storeAddr here 8 6).toNat % 4 ≠ 0 ∧
    ((storeAddr here 8 (-4)).toNat % 4 = 0 ∧ ¬AllMember here.plat.dmemSet (storeAddr here 8 (-4)) 4) := by unfold AllMember; decide
theorem test_witness_LoadAfterStoreReturnsTheWord :
    ∃ t, exec (.sw 2 8 4) here = .next t ∧ (7 : Reg) ≠ 0#5 ∧ (storeAddr here 8 4).toNat % 4 = 0 ∧
      AllMember here.plat.dmemSet (storeAddr here 8 4) 4 ∧ loadAddr t 9 0 = storeAddr here 8 4 :=
  ⟨_, rfl, by decide, by decide, by unfold AllMember; decide, by decide⟩
theorem test_witness_OnlyLoadsAndStoresTouchMemory :
    (isLoad (.add 3 1 2) = false ∧ isStore (.add 3 1 2) = false) ∧
      ∃ t, isStore (.lw 3 8 0) = false ∧ exec (.lw 3 8 0) here = .next t := ⟨by decide, _, by decide, rfl⟩
theorem test_witness_MixedWidthAccess : (0xFFFFFFFC#32).toNat % 4 = 0 ∧ 3 < 4 ∧ 2 < 4 := by decide
theorem test_witness_LittleEndian : (0xFFFFFFFC#32).toNat % 4 = 0 := by decide
theorem test_witness_SeparateViewNeverChanges :
    ∃ t, here.plat.unified = false ∧ exec (.sw 2 8 4) here = .next t := ⟨_, by decide, rfl⟩
theorem test_witness_UnifiedViewSeesStores :
    (withUnified true here).plat.unified = true ∧ (storeAddr (withUnified true here) 8 4).toNat % 4 = 0 ∧
      AllMember (withUnified true here).plat.dmemSet (storeAddr (withUnified true here) 8 4) 4 := by unfold AllMember; decide
theorem test_witness_StepIndependentOfUnified : wordIn here.mem here.pc = wordIn here.imem here.pc := by decide

theorem test_witness_DecodeOfEncode : WellFormed (.beq 31 31 0x1FFE#13) = true ∧ WellFormed (.jal 31 0x1FFFFE#21) = true := by decide
theorem test_witness_EncodeOfDecode : decode 0xFFDFF06F#32 = .ok (.jal 0 (-4)) := by decide
theorem test_witness_DecodeBytesOfEncodeBytes :
    WellFormed (.sw 7 8 4) = true ∧ ([0x13, 0x00, 0x00] : List Byte).length < 4 := by decide
theorem test_witness_DecodeMatchesOpcodeTable :
    ⟨"EBREAK", 0xFFFFFFFF, 0x00100073⟩ ∈ opcodeTable ∧ (0x00100073#32 &&& 0xFFFFFFFF#32) = 0x00100073#32 := by decide
theorem test_witness_InstructionsEndInOneOne : (0x00008082#32).extractLsb' 0 2 ≠ 0b11#2 := by decide
theorem test_witness_ImmediateBits : 31 < 32 ∧ 20 < 32 ∧ 11 < 32 ∧ 0 < 32 := by decide

theorem test_witness_StepRunsDecodedInstruction :
    Running here ∧ here.pc.toNat % 4 = 0 ∧ AllMember here.plat.imemSet here.pc 4 ∧ wordIn here.mem here.pc = some 0x002081B3#32 ∧
      wordIn here.imem here.pc = some 0x002081B3#32 ∧ decode 0x002081B3#32 = .ok (.add 3 1 2) := by unfold AllMember; decide
theorem test_witness_StepOrder_halted : (halt here).halted = true := by decide
theorem test_witness_StepOrder_faulted :
    (raise here (.loadAccessFault 0#32)).halted = false ∧
      (raise here (.loadAccessFault 0#32)).fault = some (.loadAccessFault 0#32) := by decide
theorem test_witness_StepOrder_outside :
    Running (setPc here 0x00000108#32) ∧ (setPc here 0x00000108#32).pc.toNat % 4 = 0 ∧
      ¬AllMember (setPc here 0x00000108#32).plat.imemSet (setPc here 0x00000108#32).pc 4 := by unfold AllMember; decide
theorem test_witness_StepOrder_unwritten :
    Running (setPc here 0x00000104#32) ∧ (setPc here 0x00000104#32).pc.toNat % 4 = 0 ∧
      AllMember (setPc here 0x00000104#32).plat.imemSet (setPc here 0x00000104#32).pc 4 ∧
      fetchWord (setPc here 0x00000104#32) (setPc here 0x00000104#32).pc = none := by unfold AllMember; decide
theorem test_witness_StepOrder_undefined :
    Running (placeWord here here.pc 0#32) ∧ (placeWord here here.pc 0#32).pc.toNat % 4 = 0 ∧
      AllMember (placeWord here here.pc 0#32).plat.imemSet (placeWord here here.pc 0#32).pc 4 ∧
      fetchWord (placeWord here here.pc 0#32) (placeWord here here.pc 0#32).pc = some 0#32 ∧
      decode 0#32 = .error .sixteenBitSpace := by unfold AllMember; decide
theorem test_witness_StepOrder_runs :
    fetchWord here here.pc = some 0x002081B3#32 ∧ decode 0x002081B3#32 = .ok (.add 3 1 2) := by decide
theorem test_witness_RunningMachineSteps :
    Inv here ∧ Running here ∧ wordIn here.mem here.pc = some 0x002081B3#32 ∧ wordIn here.imem here.pc = some 0x002081B3#32 :=
  ⟨here_inv, by decide, by decide, by decide⟩
theorem test_witness_FaultsArePrecise :
    ∃ t, step (placeWord here here.pc 0#32) = .next t ∧ t.fault = some (.illegalInstruction 0x00000100#32 0#32) :=
  ⟨_, rfl, by decide⟩
theorem test_witness_InstructionsRaiseOnlyTheirRecords :
    here.fault = none ∧
    (∃ t, exec (.beq 1 4 6) here = .next t ∧ t.fault = some (.instructionAddressMisaligned 0x00000106#32)) ∧
    (∃ t, exec (.jalr 3 8 3) here = .next t ∧ t.fault = some (.instructionAddressMisaligned 0x00002002#32)) ∧
    (∃ t, exec (.lh 3 8 7) here = .next t ∧ t.fault = some (.loadAddressMisaligned 0x00002007#32)) ∧
    (∃ t, exec (.lw 3 8 8) here = .next t ∧ t.fault = some (.loadAccessFault 0x00002008#32)) ∧
    (∃ t, exec (.sw 3 8 6) here = .next t ∧ t.fault = some (.storeAddressMisaligned 0x00002006#32)) ∧
    (∃ t, exec (.sb 3 8 (-1)) here = .next t ∧ t.fault = some (.storeAccessFault 0x00001FFF#32)) :=
  ⟨by decide, ⟨_, rfl, by decide⟩, ⟨_, rfl, by decide⟩, ⟨_, rfl, by decide⟩, ⟨_, rfl, by decide⟩, ⟨_, rfl, by decide⟩,
    ⟨_, rfl, by decide⟩⟩
theorem test_witness_ViewAndPlatformAreConstant : ∃ t, step here = .next t := ⟨_, rfl⟩
theorem test_witness_StepKeepsInvariant : Inv here ∧ ∃ t, step here = .next t := ⟨here_inv, _, rfl⟩
theorem test_witness_ResetMeetsInvariant : Platform.wf here.plat := here_platForm
/-- `here` with `lw x3, 0(x8)` at `pc`. -/
def loading : State := placeWord here here.pc 0x00042183#32
/-- The same state with another byte just behind those it loads, and another word just behind the one it fetches. -/
def unseen (s : State) : State :=
  { s with mem := Memory.put s.mem 0x2004 0xAA#8, imem := memWrite s.imem 0x00000104#32 4 0xFFFFFFFF#32 }

theorem loading_runs : fetchInstr loading = .runs (.lw 3 8 0) := by decide
theorem test_witness_StepDependsOnVisibleStateAlone :
    SameRegs loading (unseen loading) ∧ fetchWord (unseen loading) loading.pc = fetchWord loading loading.pc ∧
      (unseen loading).mem ≠ loading.mem ∧ (unseen loading).imem ≠ loading.imem ∧ (∃ t, step loading = .next t) ∧
      ∀ i, fetchInstr loading = .runs i → ∀ k < (loadedBytes i loading).2,
        Memory.get? (unseen loading).mem ((loadedBytes i loading).1 + BitVec.ofNat 32 k).toNat =
          Memory.get? loading.mem ((loadedBytes i loading).1 + BitVec.ofNat 32 k).toNat := by
  refine ⟨fun _ => rfl, by decide, by decide, by decide, ⟨_, rfl⟩, fun i h => ?_⟩
  rw [loading_runs] at h
  cases h
  decide
theorem test_witness_StepDependsOnVisibleStateAlone_stopped :
    step (halt here) = .fault .halted ∧ step (setPc here 0x00000104#32) = .refused .unwrittenFetch := ⟨rfl, rfl⟩

end Sys2Proof.Tests
end

section
/-! PROOF. The `rd` field 0 (10_state.md R11): an instruction with `x0` for its destination does what it does with any
other, but for the register result. Each shared operation is compared with itself for another destination once; the
instructions follow by family. -/

namespace Sys2Proof.Machine

/-! ### Reading and writing `x0` -/

@[simp] theorem readReg_zero (s : State) : readReg s 0#5 = 0x00000000#32 := by simp [readReg]

@[simp] theorem writeReg_zero (s : State) (v : Word) : writeReg s 0#5 v = s := by simp [writeReg]

@[simp] theorem setAndAdvance_zero (s : State) (v : Word) : setAndAdvance s 0#5 v = advance s := by simp [setAndAdvance]

/-! ### Taking a register result back -/

/-- `t` with the registers of `s`: what an instruction answers without its register result. -/
def withRegsOf (s t : State) : State := { t with x := s.x }

/-- A state with the registers of `s` already is unchanged by taking the result back. -/
theorem withRegsOf_eq_self {s t : State} (h : t.x = s.x) : withRegsOf s t = t := by simp [withRegsOf, ← h]

@[simp] theorem withRegsOf_setPc (s t : State) (a : Word) : withRegsOf s (setPc t a) = setPc (withRegsOf s t) a := rfl

@[simp] theorem withRegsOf_advance (s t : State) : withRegsOf s (advance t) = advance (withRegsOf s t) := rfl

@[simp] theorem withRegsOf_writeReg (s : State) (d : Reg) (v : Word) : withRegsOf s (writeReg s d v) = s := by
  unfold writeReg; split <;> rfl

@[simp] theorem withRegsOf_raise (s : State) (r : FaultRecord) : withRegsOf s (raise s r) = raise s r := rfl

/-! ### The shared operations with destination 0 -/

/-- A result into `x0` is the advance alone. -/
theorem setAndAdvance_zero_eq_withRegsOf (s : State) (d : Reg) (v : Word) :
    setAndAdvance s 0#5 v = withRegsOf s (setAndAdvance s d v) := by
  calc setAndAdvance s 0#5 v = advance s := setAndAdvance_zero s v
    _ = advance (withRegsOf s (writeReg s d v)) := by rw [withRegsOf_writeReg]
    _ = withRegsOf s (setAndAdvance s d v) := rfl

/-- A jump that links into `x0` goes where it goes with another link register, or raises as it does. -/
theorem transfer_zero_eq_withRegsOf (s : State) (target : Word) (d : Reg) (v : Word) :
    transfer s target (writeReg s 0#5 v) = withRegsOf s (transfer s target (writeReg s d v)) := by
  by_cases ha : target.toNat % 4 = 0
  · simp only [transfer, if_pos ha, writeReg_zero, withRegsOf_setPc, withRegsOf_writeReg]
  · simp only [transfer, if_neg ha, withRegsOf_raise]

/-- A load into `x0` makes the checks of a load into another register and raises what that raises. -/
theorem loadInto_zero_eq_withRegsOf (s : State) (w : Width) (d : Reg) (a : Word) (value : Memory → Word → Word) :
    loadInto s w 0#5 a value = withRegsOf s (loadInto s w d a value) := by
  unfold loadInto
  cases loadFault s.plat w a with
  | some r => exact (withRegsOf_raise s r).symm
  | none => exact setAndAdvance_zero_eq_withRegsOf s d _

/-! ### The operations without a destination write no register -/

@[simp] theorem branchIf_x (s : State) (cond : Bool) (off : BitVec 13) : (branchIf s cond off).x = s.x := by
  rcases branchIf_cases s cond off with ⟨_, h⟩ | ⟨_, _, h⟩ | ⟨_, _, h⟩ <;> simp [h]

@[simp] theorem storeFrom_x (s : State) (w : Width) (a v : Word) : (storeFrom s w a v).x = s.x := by
  rcases storeFrom_cases s w a v with ⟨_, h⟩ | ⟨_, _, h⟩ | ⟨_, _, h⟩ <;> simp [h]

/-! ### Every instruction -/

/-- With 0 in its `rd` field an instruction answers as with `d` there, but for the registers (10_state.md R11). -/
theorem exec_setDest_zero (i : Instr) (d : Reg) (s : State) :
    exec (setDest i 0#5) s = mapNext (withRegsOf s) (exec (setDest i d) s) := by
  cases i
  case add | sub | sll | slt | sltu | xor | srl | sra | or | and | addi | slti | sltiu | andi | ori | xori | slli | srli
      | srai | lui | auipc => exact congrArg Host.Outcome.next (setAndAdvance_zero_eq_withRegsOf s d _)
  case jal | jalr => exact congrArg Host.Outcome.next (transfer_zero_eq_withRegsOf s _ d _)
  case lb | lbu | lh | lhu | lw => exact congrArg Host.Outcome.next (loadInto_zero_eq_withRegsOf s _ d _ _)
  case beq | bne | blt | bge | bltu | bgeu =>
    exact congrArg Host.Outcome.next (withRegsOf_eq_self (branchIf_x s _ _)).symm
  case sb | sh | sw => exact congrArg Host.Outcome.next (withRegsOf_eq_self (storeFrom_x s _ _ _)).symm
  case ebreak => exact congrArg Host.Outcome.next (withRegsOf_eq_self (halt_x s)).symm

/-- Settles O13: reading `x0` by definition, the rest by comparing the two answers of every instruction. -/
theorem zeroDestinationDiscardsTheResultAlone : Obligations.ZeroDestinationDiscardsTheResultAlone := by
  unfold Obligations.ZeroDestinationDiscardsTheResultAlone
  refine ⟨readReg_zero, fun i d s t h => ?_⟩
  rw [exec_setDest_zero i d s, h]
  rfl

end Sys2Proof.Machine
end

section
/-! PROOF. Data memory is touched by loads and stores alone (20_memory.md R31). Replacing the data view commutes with each
operation that neither reads nor writes it, so with every instruction made of such operations; that a load writes nothing
there follows from the shapes of a next state. -/

namespace Sys2Proof.Machine

/-! ### Replacing the data view before or after an update of another field -/

@[simp] theorem setPc_setMem (s : State) (m : Memory) (a : Word) : setPc (setMem s m) a = setMem (setPc s a) m := rfl

@[simp] theorem advance_setMem (s : State) (m : Memory) : advance (setMem s m) = setMem (advance s) m := rfl

@[simp] theorem raise_setMem (s : State) (m : Memory) (r : FaultRecord) :
    raise (setMem s m) r = setMem (raise s r) m := rfl

@[simp] theorem halt_setMem (s : State) (m : Memory) : halt (setMem s m) = setMem (halt s) m := rfl

@[simp] theorem writeReg_setMem (s : State) (m : Memory) (d : Reg) (v : Word) :
    writeReg (setMem s m) d v = setMem (writeReg s d v) m := by
  unfold writeReg
  split <;> rfl

/-! ### The shared operations other than load and store -/

theorem setAndAdvance_setMem (s : State) (m : Memory) (d : Reg) (v : Word) :
    setAndAdvance (setMem s m) d v = setMem (setAndAdvance s d v) m := by
  simp only [setAndAdvance, writeReg_setMem, advance_setMem]

theorem transfer_setMem (s t : State) (m : Memory) (target : Word) :
    transfer (setMem s m) target (setMem t m) = setMem (transfer s target t) m := by
  by_cases ha : target.toNat % 4 = 0
  · simp only [transfer, if_pos ha, setPc_setMem]
  · simp only [transfer, if_neg ha, raise_setMem]

/-- A jump is a transfer to the state with the link written. -/
theorem transfer_writeReg_setMem (s : State) (m : Memory) (target : Word) (d : Reg) (v : Word) :
    transfer (setMem s m) target (writeReg (setMem s m) d v) = setMem (transfer s target (writeReg s d v)) m := by
  rw [writeReg_setMem, transfer_setMem]

theorem branchIf_setMem (s : State) (m : Memory) (cond : Bool) (off : BitVec 13) :
    branchIf (setMem s m) cond off = setMem (branchIf s cond off) m := by
  cases cond with
  | false => exact advance_setMem s m
  | true => exact transfer_setMem s s m (branchTarget s off)

/-! ### Every instruction -/

/-- An instruction that is no load and no store answers the same whatever the data view holds, and leaves it alone. -/
theorem exec_setMem (i : Instr) (s : State) (m : Memory) (hl : isLoad i = false) (hs : isStore i = false) :
    exec i (setMem s m) = mapNext (fun t => setMem t m) (exec i s) := by
  cases i
  case add | sub | sll | slt | sltu | xor | srl | sra | or | and | addi | slti | sltiu | andi | ori | xori | slli | srli
      | srai | lui | auipc => exact congrArg Host.Outcome.next (setAndAdvance_setMem s m _ _)
  case beq | bne | blt | bge | bltu | bgeu => exact congrArg Host.Outcome.next (branchIf_setMem s m _ _)
  case jal | jalr => exact congrArg Host.Outcome.next (transfer_writeReg_setMem s m _ _ _)
  case ebreak => exact congrArg Host.Outcome.next (halt_setMem s m)
  case lb | lbu | lh | lhu | lw => cases hl
  case sb | sh | sw => cases hs

/-- Of the shapes of a next state, only a store's has another data view. -/
theorem exec_mem_of_not_store {i : Instr} {s t : State} (hs : isStore i = false) (h : exec i s = .next t) :
    t.mem = s.mem := by
  cases exec_shape h with
  | set | adv | jmp | link | rse | hlt => simp
  | sto _ _ _ hstore => cases hs.symm.trans hstore

/-- Settles O32: replacing the data view commutes with every instruction that is no load and no store, and the shapes of a
next state bound who writes it. -/
theorem onlyLoadsAndStoresTouchMemory : Obligations.OnlyLoadsAndStoresTouchMemory := by
  unfold Obligations.OnlyLoadsAndStoresTouchMemory
  exact ⟨exec_setMem, fun _ _ _ => exec_mem_of_not_store⟩

end Sys2Proof.Machine
end

section
/-! PROOF. The two low bits of a word (30_encoding.md R60, R79). They are the low bits of the opcode field, and the ten
opcodes in use all end in `0b11`: so does every encoding, and the decoder refuses what does not. -/

namespace Sys2Proof

/-- The opcodes of the ten groups of R77. -/
def usedOpcodes : List (BitVec 7) :=
  [0b0110011#7, 0b0010011#7, 0b0110111#7, 0b0010111#7, 0b1100011#7, 0b1101111#7, 0b1100111#7, 0b0000011#7, 0b0100011#7,
    0b1110011#7]

/-! ### The opcodes in use -/

theorem low_bits_of_mem_usedOpcodes : ∀ op ∈ usedOpcodes, op.extractLsb' 0 2 = 0b11#2 := by decide

theorem opcodeField_encode_mem_usedOpcodes (i : Instr) : opcodeField (encode i) ∈ usedOpcodes := by
  cases i
  case add | sub | sll | slt | sltu | xor | srl | sra | or | and | slli | srli | srai =>
    rw [encode, opcodeField_packR]; decide
  case addi | slti | sltiu | andi | ori | xori | jalr | lb | lbu | lh | lhu | lw | ebreak =>
    rw [encode, opcodeField_packI]; decide
  case sb | sh | sw => rw [encode, opcodeField_packS]; decide
  case beq | bne | blt | bge | bltu | bgeu => rw [encode, opcodeField_packB]; decide
  case lui | auipc => rw [encode, opcodeField_packU]; decide
  case jal => rw [encode, opcodeField_packJ]; decide

/-- With an opcode of no group the decoder looks at the two low bits alone. -/
theorem decode_of_opcodeField_notMem_usedOpcodes {w : Word} (h : opcodeField w ∉ usedOpcodes) :
    decode w = if w.extractLsb' 0 2 = 0b11#2 then .error .unusedOpcode else .error .sixteenBitSpace := by
  simp only [usedOpcodes, List.mem_cons, List.not_mem_nil, or_false, not_or] at h
  simp only [decode, h, if_false]

/-! ### The two low bits of a word -/

@[simp] theorem opcodeField_low_bits (w : Word) : (opcodeField w).extractLsb' 0 2 = w.extractLsb' 0 2 :=
  BitVec.extractLsb'_extractLsb'_of_le (by decide)

theorem encode_low_bits (i : Instr) : (encode i).extractLsb' 0 2 = 0b11#2 := by
  rw [← opcodeField_low_bits]
  exact low_bits_of_mem_usedOpcodes _ (opcodeField_encode_mem_usedOpcodes i)

theorem decode_of_low_bits_ne {w : Word} (h : w.extractLsb' 0 2 ≠ 0b11#2) : decode w = .error .sixteenBitSpace := by
  have hop : opcodeField w ∉ usedOpcodes := fun hmem =>
    h ((opcodeField_low_bits w).symm.trans (low_bits_of_mem_usedOpcodes _ hmem))
  rw [decode_of_opcodeField_notMem_usedOpcodes hop, if_neg h]

/-- Settles O43: both clauses through the opcodes in use, which all end in `0b11`. -/
theorem instructionsEndInOneOne : Obligations.InstructionsEndInOneOne := by
  unfold Obligations.InstructionsEndInOneOne
  exact ⟨fun i => ⟨Machine.bytesOfWord_length (encode i), encode_low_bits i⟩, fun _ => decode_of_low_bits_ne⟩

end Sys2Proof
end

section
/-! PROOF. Where the bits of the five immediates come from (30_encoding.md R69 to R73). A bit of a sign extension is a bit
of what is extended, and a bit of a field is a bit of the word; each immediate is then read off part by part. -/

namespace Sys2Proof.Machine

/-- Bit `k` of a sign extension is bit `k` of the value, or its top bit from there on. -/
theorem sext_getLsbD {n : Nat} (v : BitVec n) {k : Nat} (hk : k < 32) :
    (sext v).getLsbD k = v.getLsbD (min k (n - 1)) := by
  rw [sext, BitVec.getLsbD_signExtend, decide_eq_true hk, Bool.true_and]
  by_cases hn : k < n
  · rw [if_pos hn, Nat.min_eq_left (by omega)]
  · rw [if_neg hn, Nat.min_eq_right (by omega), BitVec.msb_eq_getLsbD_last]

/-- Bit `i` of a field that begins at bit `start` is bit `j = start + i` of the word. -/
theorem extractLsb'_getLsbD_of_eq {w : Word} {start len i j : Nat} (hi : i < len) (hj : start + i = j) :
    (w.extractLsb' start len).getLsbD i = w.getLsbD j := by
  rw [BitVec.getLsbD_extractLsb', decide_eq_true hi, Bool.true_and, hj]

/-- R69: one run of bits and the sign. -/
theorem immI_getLsbD (w : Word) {k : Nat} (hk : k < 32) :
    (immI (immIField w)).getLsbD k = if 11 ≤ k then w.getLsbD 31 else w.getLsbD (k + 20) := by
  rw [immI, sext_getLsbD _ hk, immIField]
  split
  all_goals exact extractLsb'_getLsbD_of_eq (by omega) (by omega)

/-- R70: two runs of bits and the sign. -/
theorem immS_getLsbD (w : Word) {k : Nat} (hk : k < 32) :
    (immS (immSField w)).getLsbD k =
      if 11 ≤ k then w.getLsbD 31 else if 5 ≤ k then w.getLsbD (k + 20) else w.getLsbD (k + 7) := by
  rw [immS, sext_getLsbD _ hk, immSField_getLsbD]
  obtain low | high | sign : k ≤ 4 ∨ 5 ≤ k ∧ k ≤ 10 ∨ 11 ≤ k := by omega
  all_goals simp (disch := omega) only [if_pos, if_neg]
  all_goals exact extractLsb'_getLsbD_of_eq (by omega) (by omega)

/-- R71: the constant 0, two runs, bit 11 moved to `inst[7]`, and the sign. -/
theorem immB_getLsbD (w : Word) {k : Nat} (hk : k < 32) :
    (immB (immBField w)).getLsbD k =
      if 12 ≤ k then w.getLsbD 31 else if k = 11 then w.getLsbD 7 else if 5 ≤ k then w.getLsbD (k + 20)
      else if 1 ≤ k then w.getLsbD (k + 7) else false := by
  rw [immB, sext_getLsbD _ hk, immBField_getLsbD]
  obtain zero | low | high | bit11 | sign : k = 0 ∨ 1 ≤ k ∧ k ≤ 4 ∨ 5 ≤ k ∧ k ≤ 10 ∨ k = 11 ∨ 12 ≤ k := by omega
  all_goals simp (disch := omega) only [if_pos, if_neg]
  · exact BitVec.getLsbD_zero
  all_goals exact extractLsb'_getLsbD_of_eq (by omega) (by omega)

/-- R72: twelve constant zeros and one run in its own place. -/
theorem immU_getLsbD (w : Word) {k : Nat} (hk : k < 32) :
    (immU (immUField w)).getLsbD k = if 12 ≤ k then w.getLsbD k else false := by
  rw [immU, BitVec.getLsbD_append, immUField]
  obtain zero | high : k < 12 ∨ 12 ≤ k := by omega
  all_goals simp (disch := omega) only [if_pos, if_neg]
  · exact BitVec.getLsbD_zero
  · exact extractLsb'_getLsbD_of_eq (by omega) (by omega)

/-- R73: the constant 0, two runs, bit 11 moved to `inst[20]`, and the sign. -/
theorem immJ_getLsbD (w : Word) {k : Nat} (hk : k < 32) :
    (immJ (immJField w)).getLsbD k =
      if 20 ≤ k then w.getLsbD 31 else if 12 ≤ k then w.getLsbD k else if k = 11 then w.getLsbD 20
      else if 1 ≤ k then w.getLsbD (k + 20) else false := by
  rw [immJ, sext_getLsbD _ hk, immJField_getLsbD]
  obtain zero | low | bit11 | high | sign :
    k = 0 ∨ 1 ≤ k ∧ k ≤ 10 ∨ k = 11 ∨ 12 ≤ k ∧ k ≤ 19 ∨ 20 ≤ k := by omega
  all_goals simp (disch := omega) only [if_pos, if_neg]
  · exact BitVec.getLsbD_zero
  all_goals exact extractLsb'_getLsbD_of_eq (by omega) (by omega)

/-- Settles O45: one lemma for each immediate. -/
theorem immediateBits : Obligations.ImmediateBits := by
  unfold Obligations.ImmediateBits
  exact fun w _ hk => ⟨immI_getLsbD w hk, immS_getLsbD w hk, immB_getLsbD w hk, immU_getLsbD w hk, immJ_getLsbD w hk⟩

end Sys2Proof.Machine
end

section
/-! PROOF. What an instruction computes, in the words of the statements (00_scope.md R8, 40_register_arithmetic.md R100):
each operation of the model has the value that arithmetic on numbers or single bits describes, and the shared operation
that sets a register completes the instruction. Nothing here is about one instruction. -/

namespace Sys2Proof.Machine

open Sys2Proof.Claim

/-! ### Completion -/

/-- An instruction that sets `rd` and advances completes, with the frame the statements ask for. -/
theorem setsRegister_of_exec_eq {i : Instr} {s : State} {rd : Reg} {v : Word} {P : Word → Prop}
    (hexec : exec i s = .next (setAndAdvance s rd v)) (hv : P v) : SetsRegister i s rd P := by
  have hbytes : SameBytes s.mem (setAndAdvance s rd v).mem := fun c => by rw [setAndAdvance_mem]
  have hcontrol : SameControl s (setAndAdvance s rd v) :=
    ⟨setAndAdvance_imem s rd v, setAndAdvance_halted s rd v, setAndAdvance_fault s rd v, setAndAdvance_plat s rd v⟩
  exact ⟨v, _, hv, hexec, setAndAdvance_pc s rd v, fun r => readReg_setAndAdvance s rd r v, hbytes, hcontrol⟩

/-! ### Sums and differences -/

theorem isSum_add (a b : Word) : IsSum a b (a + b) := BitVec.toNat_add a b

theorem isDifference_sub (a b : Word) : IsDifference a b (a - b) := by
  have hb := b.isLt
  rw [IsDifference, BitVec.toNat_sub]
  omega

/-! ### Comparisons -/

/-- The signed number of the statements is the library's. -/
theorem signed_eq_toInt (v : Word) : signed v = v.toInt := by
  rw [signed, BitVec.toInt_eq_msb_cond, BitVec.msb_eq_getLsbD_last]
  rfl

theorem oneIf_toNat (c : Bool) : (oneIf c).toNat = if c then 1 else 0 := by cases c <;> rfl

theorem isLessSigned_oneIf (a b : Word) : IsLessSigned a b (oneIf (lessSigned a b)) := by
  simp only [IsLessSigned, oneIf_toNat, lessSigned, signed_eq_toInt, decide_eq_true_eq]

theorem isLessUnsigned_oneIf (a b : Word) : IsLessUnsigned a b (oneIf (lessUnsigned a b)) := by
  simp only [IsLessUnsigned, oneIf_toNat, lessUnsigned, decide_eq_true_eq]

/-! ### Shifts -/

/-- The low five bits of a register are its value modulo 32. -/
theorem shiftAmount_eq_mod (v : Word) : shiftAmount v = v.toNat % 32 := by
  rw [shiftAmount, BitVec.extractLsb'_toNat, Nat.shiftRight_zero]

theorem isShiftLeft_shiftLeft (a : Word) (n : Nat) : IsShiftLeft a n (shiftLeft a n) := by
  intro k hk
  rw [shiftLeft, BitVec.getLsbD_shiftLeft]
  by_cases hn : n ≤ k
  · simp [hk, hn, Nat.not_lt.mpr hn]
  · simp [hn, Nat.lt_of_not_le hn]

theorem isShiftRightLogical_shiftRightLogical (a : Word) (n : Nat) :
    IsShiftRightLogical a n (shiftRightLogical a n) := by
  intro k _
  rw [shiftRightLogical, BitVec.getLsbD_ushiftRight, Nat.add_comm n k]
  by_cases hn : k + n ≤ 31
  · rw [if_pos hn]
  · rw [if_neg hn, BitVec.getLsbD_of_ge a _ (by omega)]

theorem isShiftRightArithmetic_shiftRightArithmetic (a : Word) (n : Nat) :
    IsShiftRightArithmetic a n (shiftRightArithmetic a n) := by
  intro k hk
  rw [shiftRightArithmetic, BitVec.getLsbD_sshiftRight, Nat.add_comm n k, BitVec.msb_eq_getLsbD_last]
  by_cases hn : k + n ≤ 31
  · rw [if_pos hn, if_pos (by omega)]; simp [hk]
  · rw [if_neg hn, if_neg (by omega)]; simp [hk]

/-! ### Bitwise operations -/

theorem isBitwise_xor (a b : Word) : IsBitwise Bool.xor a b (a ^^^ b) := fun _ _ => BitVec.getLsbD_xor

theorem isBitwise_or (a b : Word) : IsBitwise (· || ·) a b (a ||| b) := fun _ _ => BitVec.getLsbD_or

theorem isBitwise_and (a b : Word) : IsBitwise (· && ·) a b (a &&& b) := fun _ _ => BitVec.getLsbD_and

end Sys2Proof.Machine
end

section
/-! PROOF. The ten register-register instructions (40_register_arithmetic.md R100 to R110). One rule serves all: the word
is the encoding of an instruction with their opcode, which the decoder reads back, and the instruction sets `rd` to a
function of its two sources. What is left of each statement is the value, proved above. -/

namespace Sys2Proof.Machine

open Sys2Proof.Claim

/-- The decoder reads back every instruction with the register-register opcode: the ten of them, for all others have
another opcode. -/
theorem decode_encode_of_register_opcode {i : Instr} (h : opcodeField (encode i) = 0b0110011#7) :
    decode (encode i) = .ok i := by
  cases i
  case add | sub | sll | slt | sltu | xor | srl | sra | or | and => simp [encode, decode, decodeRegisterArithmetic]
  all_goals simp [encode] at h

/-- A register-register instruction obeys its rule if it sets `rd` to a value `f` of its sources that `P` describes. -/
theorem registerRule_of_exec_eq {f7 : BitVec 7} {f3 : BitVec 3} {mk : Reg → Reg → Reg → Instr}
    {P : Word → Word → Word → Prop} (f : Word → Word → Word)
    (hencode : ∀ rd rs1 rs2, encode (mk rd rs1 rs2) = packR f7 rs2 rs1 f3 rd 0b0110011#7)
    (hexec : ∀ rd rs1 rs2 s,
      exec (mk rd rs1 rs2) s = .next (setAndAdvance s rd (f (readReg s rs1) (readReg s rs2))))
    (hvalue : ∀ a b, P a b (f a b)) : RegisterRule f7 f3 mk P := by
  intro rd rs1 rs2 s
  have hopcode : opcodeField (encode (mk rd rs1 rs2)) = 0b0110011#7 := by rw [hencode, opcodeField_packR]
  have hdecode : decode (packR f7 rs2 rs1 f3 rd 0b0110011#7) = .ok (mk rd rs1 rs2) :=
    hencode rd rs1 rs2 ▸ decode_encode_of_register_opcode hopcode
  exact ⟨hdecode, setsRegister_of_exec_eq (hexec rd rs1 rs2 s) (hvalue _ _)⟩

/-- Settles O1: sum and difference of words are those of numbers modulo `2^32`. -/
theorem addSubRegisters : Obligations.AddSubRegisters := by
  unfold Obligations.AddSubRegisters
  exact ⟨registerRule_of_exec_eq (· + ·) (fun _ _ _ => rfl) (fun _ _ _ _ => rfl) isSum_add,
    registerRule_of_exec_eq (· - ·) (fun _ _ _ => rfl) (fun _ _ _ _ => rfl) isDifference_sub⟩

/-- Settles O2: the shift amount is `rs2` modulo 32, and each shift moves single bits by it. -/
theorem shiftRegisters : Obligations.ShiftRegisters := by
  unfold Obligations.ShiftRegisters
  refine ⟨registerRule_of_exec_eq (fun a b => shiftLeft a (shiftAmount b)) (fun _ _ _ => rfl) (fun _ _ _ _ => rfl) ?left,
    registerRule_of_exec_eq (fun a b => shiftRightLogical a (shiftAmount b)) (fun _ _ _ => rfl)
      (fun _ _ _ _ => rfl) ?logical,
    registerRule_of_exec_eq (fun a b => shiftRightArithmetic a (shiftAmount b)) (fun _ _ _ => rfl)
      (fun _ _ _ _ => rfl) ?arithmetic⟩
  all_goals simp only [shiftAmount_eq_mod]
  case left => exact fun a _ => isShiftLeft_shiftLeft a _
  case logical => exact fun a _ => isShiftRightLogical_shiftRightLogical a _
  case arithmetic => exact fun a _ => isShiftRightArithmetic_shiftRightArithmetic a _

/-- Settles O3: the comparisons are exact, signed and unsigned. -/
theorem compareRegisters : Obligations.CompareRegisters := by
  unfold Obligations.CompareRegisters
  exact ⟨registerRule_of_exec_eq (fun a b => oneIf (lessSigned a b)) (fun _ _ _ => rfl) (fun _ _ _ _ => rfl)
      isLessSigned_oneIf,
    registerRule_of_exec_eq (fun a b => oneIf (lessUnsigned a b)) (fun _ _ _ => rfl) (fun _ _ _ _ => rfl)
      isLessUnsigned_oneIf⟩

/-- Settles O4: each bit of the result is the operation on the sources' bits there. -/
theorem bitwiseRegisters : Obligations.BitwiseRegisters := by
  unfold Obligations.BitwiseRegisters
  exact ⟨registerRule_of_exec_eq (· ^^^ ·) (fun _ _ _ => rfl) (fun _ _ _ _ => rfl) isBitwise_xor,
    registerRule_of_exec_eq (· ||| ·) (fun _ _ _ => rfl) (fun _ _ _ _ => rfl) isBitwise_or,
    registerRule_of_exec_eq (· &&& ·) (fun _ _ _ => rfl) (fun _ _ _ _ => rfl) isBitwise_and⟩

end Sys2Proof.Machine
end

section
/-! PROOF. LUI and AUIPC (42_upper_immediate.md R140 to R142). The U-type word is read back field by field, and the
U-immediate is the one word that the statements describe as the field above twelve zeros. -/

namespace Sys2Proof.Machine

open Sys2Proof.Claim

/-! ### Decoding -/

theorem decode_packU_lui (rd : Reg) (imm : BitVec 20) : decode (packU imm rd 0b0110111#7) = .ok (.lui rd imm) := by
  simp [decode]

theorem decode_packU_auipc (rd : Reg) (imm : BitVec 20) : decode (packU imm rd 0b0010111#7) = .ok (.auipc rd imm) := by
  simp [decode]

/-! ### The U-immediate -/

/-- Putting twelve zeros below the field multiplies it by `2^12` (30_encoding.md R72). -/
theorem immU_toNat (imm : BitVec 20) : (immU imm).toNat = imm.toNat * 4096 := by
  rw [immU, BitVec.toNat_append, Nat.shiftLeft_eq]
  exact Nat.or_zero _

theorem isUpper_iff_eq_immU (imm : BitVec 20) (b : Word) : IsUpper imm b ↔ b = immU imm := by
  rw [IsUpper, ← immU_toNat, BitVec.toNat_inj]

/-- Settles O10: the described value is the U-immediate, which LUI sets and AUIPC adds to its own address. -/
theorem upperImmediates : Obligations.UpperImmediates := by
  unfold Obligations.UpperImmediates
  intro rd imm s b hb
  obtain rfl := (isUpper_iff_eq_immU imm b).mp hb
  exact ⟨decode_packU_lui rd imm, setsRegister_of_exec_eq rfl rfl,
    decode_packU_auipc rd imm, setsRegister_of_exec_eq rfl (isSum_add s.pc (immU imm))⟩

end Sys2Proof.Machine
end

section
/-! PROOF. The six conditional branches (43_branches.md R150 to R156). One rule serves all: the word of an even offset is
the encoding of an instruction with their opcode, which the decoder reads back, and the instruction is a branch on a test
of its two sources. What is left of each statement is that the test decides the condition. -/

namespace Sys2Proof.Machine

open Sys2Proof.Claim

/-! ### Decoding -/

/-- The decoder reads back every well-formed instruction with the branch opcode: the six of them with an even offset, for
all others have another opcode. -/
theorem decode_encode_of_branch_opcode {i : Instr} (h : opcodeField (encode i) = 0b1100011#7)
    (hwf : WellFormed i = true) : decode (encode i) = .ok i := by
  cases i
  case beq | bne | blt | bge | bltu | bgeu =>
    rw [WellFormed] at hwf
    simp [encode, decode, decodeBranch, hwf]
  all_goals simp [encode] at h

theorem evenOffset_iff {n : Nat} (off : BitVec n) : evenOffset off = true ↔ off.getLsbD 0 = false := beq_iff_eq

/-! ### The target -/

/-- The described extension of an offset is the model's. -/
theorem eq_sext_of_isSignExtended {n : Nat} {imm : BitVec n} {v : Word} (h : IsSignExtended imm v) : v = sext imm := by
  apply BitVec.eq_of_getLsbD_eq
  intro k hk
  rw [h k hk, sext_getLsbD imm hk]
  congr 1
  split <;> omega

/-- The described sum is the model's. -/
theorem eq_add_of_isSum {a b v : Word} (h : IsSum a b v) : v = a + b :=
  BitVec.eq_of_toNat_eq (h.trans (isSum_add a b).symm)

/-- The target that the statements describe is the model's (43_branches.md R150). -/
theorem eq_branchTarget {s : State} {off : BitVec 13} {b target : Word} (hb : IsSignExtended off b)
    (ht : IsSum s.pc b target) : target = branchTarget s off := by
  rw [eq_add_of_isSum ht, eq_sext_of_isSignExtended hb]
  rfl

/-! ### Where a branch goes -/

theorem branchIf_false (s : State) (off : BitVec 13) : branchIf s false off = advance s := rfl

theorem branchIf_true_of_aligned {s : State} {off : BitVec 13} (h : (branchTarget s off).toNat % 4 = 0) :
    branchIf s true off = setPc s (branchTarget s off) := if_pos h

theorem branchIf_true_of_misaligned {s : State} {off : BitVec 13} (h : (branchTarget s off).toNat % 4 ≠ 0) :
    branchIf s true off = raise s (.instructionAddressMisaligned (branchTarget s off)) := if_neg h

/-- An instruction that sets `pc` alone completes, with the frame the statements ask for. -/
theorem setsPc_of_exec_eq {i : Instr} {s : State} {p : Word} (hexec : exec i s = .next (setPc s p)) : SetsPc i s p := by
  have hbytes : SameBytes s.mem (setPc s p).mem := fun c => by rw [setPc_mem]
  have hcontrol : SameControl s (setPc s p) := ⟨setPc_imem s p, setPc_halted s p, setPc_fault s p, setPc_plat s p⟩
  exact ⟨_, hexec, setPc_pc s p, readReg_setPc s p, hbytes, hcontrol⟩

/-! ### The rule of one branch -/

section Rule

variable {f3 : BitVec 3} {mk : Reg → Reg → BitVec 13 → Instr} {cond : Word → Word → Prop} (test : Word → Word → Bool)
  (hencode : ∀ rs1 rs2 off, encode (mk rs1 rs2 off) = packB off rs2 rs1 f3 0b1100011#7)
  (hwf : ∀ rs1 rs2 off, WellFormed (mk rs1 rs2 off) = evenOffset off)
  (hexec : ∀ rs1 rs2 off s, exec (mk rs1 rs2 off) s = .next (branchIf s (test (readReg s rs1) (readReg s rs2)) off))
  (htest : ∀ a b, test a b = true ↔ cond a b)

include hencode hwf in
/-- The encoding: an even offset makes the instruction well-formed, so its word is read back. -/
theorem branchEncoding_of_encode_eq : BranchEncoding f3 mk := by
  intro rs1 rs2 off heven
  have hopcode : opcodeField (encode (mk rs1 rs2 off)) = 0b1100011#7 := by rw [hencode, opcodeField_packB]
  have hwellFormed : WellFormed (mk rs1 rs2 off) = true := by rw [hwf, evenOffset_iff, heven]
  have hdecode : decode (packB off rs2 rs1 f3 0b1100011#7) = .ok (mk rs1 rs2 off) :=
    hencode rs1 rs2 off ▸ decode_encode_of_branch_opcode hopcode hwellFormed
  exact hdecode

include hexec htest in
/-- Both ways: taken to an aligned target, or not taken. -/
theorem branchGoes_of_exec_eq : BranchGoes mk cond := by
  intro rs1 rs2 off s b target hb ht
  obtain rfl := eq_branchTarget hb ht
  refine ⟨fun hcond haligned => setsPc_of_exec_eq ?taken, fun hcond => setsPc_of_exec_eq ?notTaken⟩
  case taken => rw [hexec, (htest _ _).mpr hcond, branchIf_true_of_aligned haligned]
  case notTaken =>
    have hfalse := Bool.eq_false_iff.mpr (mt (htest _ _).mp hcond)
    rw [hexec, hfalse, branchIf_false, advance]

include hexec htest in
/-- The exception: taken to a misaligned target. -/
theorem branchExcepts_of_exec_eq : BranchExcepts mk cond := by
  intro rs1 rs2 off s b target hb ht hcond hmisaligned
  obtain rfl := eq_branchTarget hb ht
  refine ⟨raise s _, ?_, raise_fault s _⟩
  rw [hexec, (htest _ _).mpr hcond, branchIf_true_of_misaligned hmisaligned]

include hencode hwf hexec htest in
/-- A branch obeys its rule if it branches on a `test` of its sources that decides `cond`. -/
theorem branchRule_of_exec_eq : BranchRule f3 mk cond :=
  ⟨branchEncoding_of_encode_eq hencode hwf, branchGoes_of_exec_eq test hexec htest,
    branchExcepts_of_exec_eq test hexec htest⟩

end Rule

/-! ### The tests -/

theorem lessSigned_iff (a b : Word) : lessSigned a b = true ↔ signed a < signed b := by
  rw [lessSigned, decide_eq_true_eq, signed_eq_toInt, signed_eq_toInt]

theorem not_lessSigned_iff (a b : Word) : (!lessSigned a b) = true ↔ signed a ≥ signed b := by
  rw [Bool.not_eq_true', ← Bool.not_eq_true, lessSigned_iff, not_lt]

theorem lessUnsigned_iff (a b : Word) : lessUnsigned a b = true ↔ a.toNat < b.toNat := decide_eq_true_iff

theorem not_lessUnsigned_iff (a b : Word) : (!lessUnsigned a b) = true ↔ a.toNat ≥ b.toNat := by
  rw [Bool.not_eq_true', ← Bool.not_eq_true, lessUnsigned_iff, not_lt]

/-- Settles O16: the model tests words for equality and inequality. -/
theorem equalityBranches : Obligations.EqualityBranches := by
  unfold Obligations.EqualityBranches
  exact ⟨branchRule_of_exec_eq (· == ·) (fun _ _ _ => rfl) (fun _ _ _ => rfl) (fun _ _ _ _ => rfl) fun _ _ => beq_iff_eq,
    branchRule_of_exec_eq (· != ·) (fun _ _ _ => rfl) (fun _ _ _ => rfl) (fun _ _ _ _ => rfl) fun _ _ => bne_iff_ne⟩

/-- Settles O17: the model's signed test is the order of signed numbers, and BGE takes its negation. -/
theorem signedBranches : Obligations.SignedBranches := by
  unfold Obligations.SignedBranches
  exact ⟨branchRule_of_exec_eq lessSigned (fun _ _ _ => rfl) (fun _ _ _ => rfl) (fun _ _ _ _ => rfl) lessSigned_iff,
    branchRule_of_exec_eq (fun a b => !lessSigned a b) (fun _ _ _ => rfl) (fun _ _ _ => rfl) (fun _ _ _ _ => rfl)
      not_lessSigned_iff⟩

/-- Settles O18: the model's unsigned test is the order of natural numbers, and BGEU takes its negation. -/
theorem unsignedBranches : Obligations.UnsignedBranches := by
  unfold Obligations.UnsignedBranches
  exact ⟨branchRule_of_exec_eq lessUnsigned (fun _ _ _ => rfl) (fun _ _ _ => rfl) (fun _ _ _ _ => rfl) lessUnsigned_iff,
    branchRule_of_exec_eq (fun a b => !lessUnsigned a b) (fun _ _ _ => rfl) (fun _ _ _ => rfl) (fun _ _ _ _ => rfl)
      not_lessUnsigned_iff⟩

end Sys2Proof.Machine
end

section
/-! PROOF. The decoder and the encoder are inverse to each other (30_encoding.md R61 to R77). One way, each group of the
decoder reads back the fields that its format packed. The other way, whatever a group answers is well-formed and packs
the fields of the word, which put together again are the word. The round trip through bytes follows. -/

namespace Sys2Proof.Machine

/-! ### The groups of the decoder -/

section Groups

variable {w : Word}

theorem decode_of_register (h : opcodeField w = 0b0110011#7) : decode w = decodeRegisterArithmetic w := by
  simp [decode, h]

theorem decode_of_immediate (h : opcodeField w = 0b0010011#7) : decode w = decodeRegisterImmediate w := by
  simp [decode, h]

theorem decode_of_lui (h : opcodeField w = 0b0110111#7) : decode w = .ok (.lui (rdField w) (immUField w)) := by
  simp [decode, h]

theorem decode_of_auipc (h : opcodeField w = 0b0010111#7) : decode w = .ok (.auipc (rdField w) (immUField w)) := by
  simp [decode, h]

theorem decode_of_jal (h : opcodeField w = 0b1101111#7) : decode w = .ok (.jal (rdField w) (immJField w)) := by
  simp [decode, h]

theorem decode_of_jalr (h : opcodeField w = 0b1100111#7) : decode w =
    if funct3Field w = 0b000#3 then .ok (.jalr (rdField w) (rs1Field w) (immIField w)) else .error .jumpRegister := by
  simp [decode, h]

theorem decode_of_branch (h : opcodeField w = 0b1100011#7) : decode w = decodeBranch w := by simp [decode, h]

theorem decode_of_load (h : opcodeField w = 0b0000011#7) : decode w = decodeLoad w := by simp [decode, h]

theorem decode_of_store (h : opcodeField w = 0b0100011#7) : decode w = decodeStore w := by simp [decode, h]

theorem decode_of_system (h : opcodeField w = 0b1110011#7) :
    decode w = if w = 0x00100073#32 then .ok .ebreak else .error .system := by
  simp [decode, h]

end Groups

/-- An opcode in use is one of the ten. -/
theorem opcodeField_cases {w : Word} (h : opcodeField w ∈ usedOpcodes) :
    opcodeField w = 0b0110011#7 ∨ opcodeField w = 0b0010011#7 ∨ opcodeField w = 0b0110111#7 ∨
    opcodeField w = 0b0010111#7 ∨ opcodeField w = 0b1100011#7 ∨ opcodeField w = 0b1101111#7 ∨
    opcodeField w = 0b1100111#7 ∨ opcodeField w = 0b0000011#7 ∨ opcodeField w = 0b0100011#7 ∨
    opcodeField w = 0b1110011#7 := by
  simpa [usedOpcodes] using h

/-- A three-bit field has one of its eight values. -/
theorem funct3_cases (f : BitVec 3) :
    f = 0b000#3 ∨ f = 0b001#3 ∨ f = 0b010#3 ∨ f = 0b011#3 ∨ f = 0b100#3 ∨ f = 0b101#3 ∨ f = 0b110#3 ∨ f = 0b111#3 := by
  revert f; decide

/-! ### Reading back an encoding -/

/-- The decoder reads back every well-formed instruction. -/
theorem decode_encode {i : Instr} (hwf : WellFormed i = true) : decode (encode i) = .ok i := by
  cases i
  case add | sub | sll | slt | sltu | xor | srl | sra | or | and =>
    exact decode_encode_of_register_opcode (by simp [encode])
  case addi | slti | sltiu | andi | ori | xori | slli | srli | srai => simp [encode, decode, decodeRegisterImmediate]
  case lui => exact decode_packU_lui _ _
  case auipc => exact decode_packU_auipc _ _
  case beq | bne | blt | bge | bltu | bgeu => exact decode_encode_of_branch_opcode (by simp [encode]) hwf
  case jal rd off =>
    have heven : evenOffset off = true := hwf
    simp [encode, decode, heven]
  case jalr => simp [encode, decode]
  case lb | lbu | lh | lhu | lw => simp [encode, decode, decodeLoad]
  case sb | sh | sw => simp [encode, decode, decodeStore]
  case ebreak => decide

/-- Settles O38: the decoder reads back each group's format. -/
theorem decodeOfEncode : Obligations.DecodeOfEncode := by
  unfold Obligations.DecodeOfEncode
  exact fun _ => decode_encode

/-! ### Encoding what was decoded -/

/-- The instruction is well-formed and the word is its encoding. -/
def Encodes (i : Instr) (w : Word) : Prop := WellFormed i = true ∧ encode i = w

section Encodes

variable {w : Word} {i : Instr} {f7 : BitVec 7} {f3 : BitVec 3} {op : BitVec 7}

/-- A word with the fixed fields of an instruction that packs the word's other fields in the R format. -/
theorem encodes_of_packR (hop : opcodeField w = op) (h7 : funct7Field w = f7) (h3 : funct3Field w = f3)
    (hwf : WellFormed i = true) (he : encode i = packR f7 (rs2Field w) (rs1Field w) f3 (rdField w) op) :
    Encodes i w := by
  subst hop h7 h3
  exact ⟨hwf, he.trans (packR_fields w)⟩

/-- A word with the fixed fields of an instruction that packs the word's other fields in the I format. -/
theorem encodes_of_packI (hop : opcodeField w = op) (h3 : funct3Field w = f3) (hwf : WellFormed i = true)
    (he : encode i = packI (immIField w) (rs1Field w) f3 (rdField w) op) : Encodes i w := by
  subst hop h3
  exact ⟨hwf, he.trans (packI_fields w)⟩

/-- A word with the fixed fields of an instruction that packs the word's other fields in the S format. -/
theorem encodes_of_packS (hop : opcodeField w = op) (h3 : funct3Field w = f3) (hwf : WellFormed i = true)
    (he : encode i = packS (immSField w) (rs2Field w) (rs1Field w) f3 op) : Encodes i w := by
  subst hop h3
  exact ⟨hwf, he.trans (packS_fields w)⟩

/-- A word with the fixed fields of an instruction that packs the word's other fields in the B format. -/
theorem encodes_of_packB (hop : opcodeField w = op) (h3 : funct3Field w = f3) (hwf : WellFormed i = true)
    (he : encode i = packB (immBField w) (rs2Field w) (rs1Field w) f3 op) : Encodes i w := by
  subst hop h3
  exact ⟨hwf, he.trans (packB_fields w)⟩

/-- A word with the opcode of an instruction that packs the word's other fields in the U format. -/
theorem encodes_of_packU (hop : opcodeField w = op) (hwf : WellFormed i = true)
    (he : encode i = packU (immUField w) (rdField w) op) : Encodes i w := by
  subst hop
  exact ⟨hwf, he.trans (packU_fields w)⟩

/-- A word with the opcode of an instruction that packs the word's other fields in the J format. -/
theorem encodes_of_packJ (hop : opcodeField w = op) (hwf : WellFormed i = true)
    (he : encode i = packJ (immJField w) (rdField w) op) : Encodes i w := by
  subst hop
  exact ⟨hwf, he.trans (packJ_fields w)⟩

/-! Each group of the decoder, by the values of its `funct3` and upper field: an undefined value contradicts `h`, and
each other one names the instruction. -/

theorem encodes_of_decodeRegisterArithmetic (hop : opcodeField w = 0b0110011#7)
    (h : decodeRegisterArithmetic w = .ok i) : Encodes i w := by
  by_cases h0 : funct7Field w = 0b0000000#7
  · rcases funct3_cases (funct3Field w) with h3 | h3 | h3 | h3 | h3 | h3 | h3 | h3
    all_goals
      simp [decodeRegisterArithmetic, h0, h3] at h
      subst h
      exact encodes_of_packR hop h0 h3 rfl rfl
  by_cases h1 : funct7Field w = 0b0100000#7
  · rcases funct3_cases (funct3Field w) with h3 | h3 | h3 | h3 | h3 | h3 | h3 | h3
    all_goals simp [decodeRegisterArithmetic, h1, h3] at h
    all_goals
      subst h
      exact encodes_of_packR hop h1 h3 rfl rfl
  · simp [decodeRegisterArithmetic, h0, h1] at h

theorem encodes_of_decodeRegisterImmediate (hop : opcodeField w = 0b0010011#7)
    (h : decodeRegisterImmediate w = .ok i) : Encodes i w := by
  rcases funct3_cases (funct3Field w) with h3 | h3 | h3 | h3 | h3 | h3 | h3 | h3
  case inr.inl => -- 001, SLLI
    by_cases h0 : funct7Field w = 0b0000000#7
    · simp [decodeRegisterImmediate, h0, h3] at h
      subst h
      exact encodes_of_packR hop h0 h3 rfl rfl
    · simp [decodeRegisterImmediate, h0, h3] at h
  case inr.inr.inr.inr.inr.inl => -- 101, SRLI and SRAI
    by_cases h0 : funct7Field w = 0b0000000#7
    · simp [decodeRegisterImmediate, h0, h3] at h
      subst h
      exact encodes_of_packR hop h0 h3 rfl rfl
    by_cases h1 : funct7Field w = 0b0100000#7
    · simp [decodeRegisterImmediate, h1, h3] at h
      subst h
      exact encodes_of_packR hop h1 h3 rfl rfl
    · simp [decodeRegisterImmediate, h0, h1, h3] at h
  all_goals
    simp [decodeRegisterImmediate, h3] at h
    subst h
    exact encodes_of_packI hop h3 rfl rfl

theorem encodes_of_decodeBranch (hop : opcodeField w = 0b1100011#7) (h : decodeBranch w = .ok i) : Encodes i w := by
  rcases funct3_cases (funct3Field w) with h3 | h3 | h3 | h3 | h3 | h3 | h3 | h3
  all_goals simp [decodeBranch, h3] at h
  all_goals
    subst h
    exact encodes_of_packB hop h3 (evenOffset_immBField w) rfl

theorem encodes_of_decodeLoad (hop : opcodeField w = 0b0000011#7) (h : decodeLoad w = .ok i) : Encodes i w := by
  rcases funct3_cases (funct3Field w) with h3 | h3 | h3 | h3 | h3 | h3 | h3 | h3
  all_goals simp [decodeLoad, h3] at h
  all_goals
    subst h
    exact encodes_of_packI hop h3 rfl rfl

theorem encodes_of_decodeStore (hop : opcodeField w = 0b0100011#7) (h : decodeStore w = .ok i) : Encodes i w := by
  rcases funct3_cases (funct3Field w) with h3 | h3 | h3 | h3 | h3 | h3 | h3 | h3
  all_goals simp [decodeStore, h3] at h
  all_goals
    subst h
    exact encodes_of_packS hop h3 rfl rfl

/-- Every word that decodes encodes the instruction it decodes to. -/
theorem encodes_of_decode (h : decode w = .ok i) : Encodes i w := by
  by_cases hmem : opcodeField w ∈ usedOpcodes
  · rcases opcodeField_cases hmem with hop | hop | hop | hop | hop | hop | hop | hop | hop | hop
    · exact encodes_of_decodeRegisterArithmetic hop (decode_of_register hop ▸ h)
    · exact encodes_of_decodeRegisterImmediate hop (decode_of_immediate hop ▸ h)
    · cases (decode_of_lui hop).symm.trans h
      exact encodes_of_packU hop rfl rfl
    · cases (decode_of_auipc hop).symm.trans h
      exact encodes_of_packU hop rfl rfl
    · exact encodes_of_decodeBranch hop (decode_of_branch hop ▸ h)
    · cases (decode_of_jal hop).symm.trans h
      exact encodes_of_packJ hop (evenOffset_immJField w) rfl
    · rw [decode_of_jalr hop] at h
      split at h
      case isTrue h3 => cases h; exact encodes_of_packI hop h3 rfl rfl
      case isFalse => cases h
    · exact encodes_of_decodeLoad hop (decode_of_load hop ▸ h)
    · exact encodes_of_decodeStore hop (decode_of_store hop ▸ h)
    · rw [decode_of_system hop] at h
      split at h
      case isTrue hw => cases h; exact ⟨rfl, hw.symm ▸ rfl⟩
      case isFalse => cases h
  · rw [decode_of_opcodeField_notMem_usedOpcodes hmem] at h
    split at h <;> cases h

end Encodes

/-- Settles O39: by the groups of the decoder. -/
theorem encodeOfDecode : Obligations.EncodeOfDecode := by
  unfold Obligations.EncodeOfDecode
  exact fun _ _ => encodes_of_decode

/-! ### Bytes (20_memory.md R33, R39) -/

/-- The four bytes of a word put together again give the word. -/
theorem wordOfBytes_byteOfWord (v : Word) :
    wordOfBytes (byteOfWord v 0) (byteOfWord v 1) (byteOfWord v 2) (byteOfWord v 3) = v := by
  apply BitVec.eq_of_getLsbD_eq
  intro k hk
  rw [wordOfBytes_getLsbD]
  obtain byte0 | byte1 | byte2 | byte3 : k < 8 ∨ 8 ≤ k ∧ k < 16 ∨ 16 ≤ k ∧ k < 24 ∨ 24 ≤ k := by omega
  all_goals simp (disch := omega) only [if_pos, if_neg]
  all_goals exact extractLsb'_getLsbD_of_eq (by omega) (by omega)

theorem decodeBytes_bytesOfWord_append (w : Word) (rest : List Byte) :
    decodeBytes (bytesOfWord w ++ rest) = (decode w).map fun i => (i, rest) := by
  simp only [bytesOfWord, List.cons_append, List.nil_append, decodeBytes, wordOfBytes_byteOfWord]
  cases decode w <;> rfl

theorem decodeBytes_of_length_lt {bs : List Byte} (h : bs.length < 4) : decodeBytes bs = .error .tooShort := by
  match bs, h with
  | [], _ | [_], _ | [_, _], _ | [_, _, _], _ => rfl

/-- Settles O40: the bytes of a word decode as the word does. -/
theorem decodeBytesOfEncodeBytes : Obligations.DecodeBytesOfEncodeBytes := by
  unfold Obligations.DecodeBytesOfEncodeBytes
  refine ⟨fun i rest hwf => ?_, fun bs => decodeBytes_of_length_lt⟩
  rw [encodeBytes, decodeBytes_bytesOfWord_append, decode_encode hwf]
  rfl

/-- Settles O46: ten closed facts, which the decoder evaluates. -/
theorem sampleWordsDecode : Obligations.SampleWordsDecode := by
  unfold Obligations.SampleWordsDecode
  decide

end Sys2Proof.Machine
end

section
/-! PROOF. The undefined words (30_encoding.md R78, R79). Each group of the decoder refuses under its own name, where
its `funct3` or upper field has no row; outside the groups the two low bits decide. So the name of a refusal says in
which space the word lies, and a word in no space decodes. -/

namespace Sys2Proof.Machine

/-! ### Each group, by the values of its `funct3` and upper field -/

section Groups

variable {w : Word} {e : DecodeError}

theorem decodeRegisterArithmetic_error_iff : decodeRegisterArithmetic w = .error e ↔
    e = .registerArithmetic ∧ funct7Field w ≠ 0b0000000#7 ∧
      ¬(funct7Field w = 0b0100000#7 ∧ (funct3Field w = 0b000#3 ∨ funct3Field w = 0b101#3)) := by
  by_cases h0 : funct7Field w = 0b0000000#7
  · rcases funct3_cases (funct3Field w) with h3 | h3 | h3 | h3 | h3 | h3 | h3 | h3
    all_goals simp [decodeRegisterArithmetic, h0, h3]
  by_cases h1 : funct7Field w = 0b0100000#7
  · rcases funct3_cases (funct3Field w) with h3 | h3 | h3 | h3 | h3 | h3 | h3 | h3
    all_goals simp [decodeRegisterArithmetic, h1, h3, eq_comm]
  · simp [decodeRegisterArithmetic, h0, h1, eq_comm]

theorem decodeRegisterImmediate_error_iff : decodeRegisterImmediate w = .error e ↔ e = .shiftImmediate ∧
    ((funct3Field w = 0b001#3 ∧ funct7Field w ≠ 0b0000000#7) ∨
      (funct3Field w = 0b101#3 ∧ funct7Field w ≠ 0b0000000#7 ∧ funct7Field w ≠ 0b0100000#7)) := by
  rcases funct3_cases (funct3Field w) with h3 | h3 | h3 | h3 | h3 | h3 | h3 | h3
  case inr.inl => -- 001, SLLI
    by_cases h0 : funct7Field w = 0b0000000#7
    all_goals simp [decodeRegisterImmediate, h3, h0, eq_comm]
  case inr.inr.inr.inr.inr.inl => -- 101, SRLI and SRAI
    by_cases h0 : funct7Field w = 0b0000000#7
    · simp [decodeRegisterImmediate, h3, h0]
    by_cases h1 : funct7Field w = 0b0100000#7
    all_goals simp [decodeRegisterImmediate, h3, h0, h1, eq_comm]
  all_goals simp [decodeRegisterImmediate, h3]

theorem decodeBranch_error_iff :
    decodeBranch w = .error e ↔ e = .branch ∧ funct3Field w ∈ [0b010#3, 0b011#3] := by
  rcases funct3_cases (funct3Field w) with h3 | h3 | h3 | h3 | h3 | h3 | h3 | h3
  all_goals simp [decodeBranch, h3, eq_comm]

theorem decodeLoad_error_iff :
    decodeLoad w = .error e ↔ e = .load ∧ funct3Field w ∈ [0b011#3, 0b110#3, 0b111#3] := by
  rcases funct3_cases (funct3Field w) with h3 | h3 | h3 | h3 | h3 | h3 | h3 | h3
  all_goals simp [decodeLoad, h3, eq_comm]

theorem decodeStore_error_iff :
    decodeStore w = .error e ↔
      e = .store ∧ funct3Field w ∈ [0b011#3, 0b100#3, 0b101#3, 0b110#3, 0b111#3] := by
  rcases funct3_cases (funct3Field w) with h3 | h3 | h3 | h3 | h3 | h3 | h3 | h3
  all_goals simp [decodeStore, h3, eq_comm]

end Groups

/-! ### Every word -/

/-- The words of each undefined space of R79; no word is too short. -/
def InSpace (w : Word) : DecodeError → Prop
  | .tooShort => False
  | .sixteenBitSpace => w.extractLsb' 0 2 ≠ 0b11#2
  | .unusedOpcode => w.extractLsb' 0 2 = 0b11#2 ∧ opcodeField w ∉ usedOpcodes
  | .registerArithmetic => opcodeField w = 0b0110011#7 ∧ funct7Field w ≠ 0b0000000#7 ∧
      ¬(funct7Field w = 0b0100000#7 ∧ (funct3Field w = 0b000#3 ∨ funct3Field w = 0b101#3))
  | .shiftImmediate => opcodeField w = 0b0010011#7 ∧
      ((funct3Field w = 0b001#3 ∧ funct7Field w ≠ 0b0000000#7) ∨
       (funct3Field w = 0b101#3 ∧ funct7Field w ≠ 0b0000000#7 ∧ funct7Field w ≠ 0b0100000#7))
  | .jumpRegister => opcodeField w = 0b1100111#7 ∧ funct3Field w ≠ 0b000#3
  | .branch => opcodeField w = 0b1100011#7 ∧ funct3Field w ∈ [0b010#3, 0b011#3]
  | .load => opcodeField w = 0b0000011#7 ∧ funct3Field w ∈ [0b011#3, 0b110#3, 0b111#3]
  | .store => opcodeField w = 0b0100011#7 ∧ funct3Field w ∈ [0b011#3, 0b100#3, 0b101#3, 0b110#3, 0b111#3]
  | .system => opcodeField w = 0b1110011#7 ∧ w ≠ 0x00100073#32

theorem low_bits_of_opcodeField_mem {w : Word} (h : opcodeField w ∈ usedOpcodes) : w.extractLsb' 0 2 = 0b11#2 :=
  (opcodeField_low_bits w).symm.trans (low_bits_of_mem_usedOpcodes _ h)

/-- With an opcode of no group, the two low bits name the space. -/
theorem decode_error_iff_of_opcodeField_notMem {w : Word} (e : DecodeError) (h : opcodeField w ∉ usedOpcodes) :
    decode w = .error e ↔ InSpace w e := by
  have hother : ∀ op ∈ usedOpcodes, opcodeField w ≠ op := fun op hop heq => h (heq ▸ hop)
  simp only [usedOpcodes, List.forall_mem_cons] at hother
  rw [decode_of_opcodeField_notMem_usedOpcodes h]
  by_cases hlow : w.extractLsb' 0 2 = 0b11#2 <;> cases e <;> simp [InSpace, h, hlow, hother]

/-- A decoding that fails unless `c`. -/
theorem ite_ok_error_iff {c : Prop} [Decidable c] {i : Instr} {d e : DecodeError} :
    (if c then Except.ok i else Except.error d) = Except.error e ↔ e = d ∧ ¬c := by
  by_cases hc : c <;> simp [hc, eq_comm]

/-- With an opcode of a group, that group of the decoder names the space. -/
theorem decode_error_iff_of_opcodeField_mem {w : Word} (e : DecodeError) (h : opcodeField w ∈ usedOpcodes) :
    decode w = .error e ↔ InSpace w e := by
  have hlow := low_bits_of_opcodeField_mem h
  rcases opcodeField_cases h with hop | hop | hop | hop | hop | hop | hop | hop | hop | hop
  all_goals
    simp only [decode_of_register, decode_of_immediate, decode_of_lui, decode_of_auipc, decode_of_branch, decode_of_jal,
      decode_of_jalr, decode_of_load, decode_of_store, decode_of_system, hop, decodeRegisterArithmetic_error_iff,
      decodeRegisterImmediate_error_iff, decodeBranch_error_iff, decodeLoad_error_iff, decodeStore_error_iff,
      ite_ok_error_iff]
    cases e <;> simp [InSpace, hlow, hop, usedOpcodes]

/-- The decoder refuses a word under the name of the space that the word lies in. -/
theorem decode_error_iff (w : Word) (e : DecodeError) : decode w = .error e ↔ InSpace w e := by
  by_cases h : opcodeField w ∈ usedOpcodes
  · exact decode_error_iff_of_opcodeField_mem e h
  · exact decode_error_iff_of_opcodeField_notMem e h

/-- Settles O44: the nine names, one by one. -/
theorem undefinedSpaces : Obligations.UndefinedSpaces := by
  unfold Obligations.UndefinedSpaces
  exact fun w => ⟨decode_error_iff w .sixteenBitSpace, decode_error_iff w .unusedOpcode,
    decode_error_iff w .registerArithmetic, decode_error_iff w .shiftImmediate, decode_error_iff w .jumpRegister,
    decode_error_iff w .branch, decode_error_iff w .load, decode_error_iff w .store, decode_error_iff w .system⟩

end Sys2Proof.Machine
end

section
/-! PROOF. The opcode table (30_encoding.md R77). No word has the fixed bits of two rows, since two rows differ where
both fix a bit. A word with the fixed bits of a row lies in no undefined space, since the row fixes the fields that the
spaces look at and its own value lies in none; so it decodes, and its row is the one of what it encodes. -/

namespace Sys2Proof.Machine

/-! ### Two rows -/

theorem opcodeTable_mnemonics_nodup : (opcodeTable.map (·.mnemonic)).Nodup := by decide

/-- A mnemonic names one row. -/
theorem opcodeTable_mnemonic_inj {r q : OpcodeRow} (hr : r ∈ opcodeTable) (hq : q ∈ opcodeTable)
    (h : r.mnemonic = q.mnemonic) : r = q :=
  List.inj_on_of_nodup_map opcodeTable_mnemonics_nodup hr hq h

/-- Two rows differ in a bit that both fix. -/
theorem opcodeTable_row_of_common_bits :
    ∀ r ∈ opcodeTable, ∀ q ∈ opcodeTable, r.value &&& q.mask = q.value &&& r.mask → r = q := by decide

/-- A word has the fixed bits of at most one row. -/
theorem opcodeTable_row_unique {r q : OpcodeRow} {w : Word} (hr : r ∈ opcodeTable) (hq : q ∈ opcodeTable)
    (hwr : w &&& r.mask = r.value) (hwq : w &&& q.mask = q.value) : r = q := by
  refine opcodeTable_row_of_common_bits r hr q hq ?_
  calc r.value &&& q.mask = w &&& (r.mask &&& q.mask) := by rw [← hwr, BitVec.and_assoc]
    _ = w &&& (q.mask &&& r.mask) := by rw [BitVec.and_comm r.mask]
    _ = q.value &&& r.mask := by rw [← hwq, BitVec.and_assoc]

/-- Settles O42: rows at different places are different, and a word has the bits of one row. -/
theorem opcodeRowsDisjoint : Obligations.OpcodeRowsDisjoint := by
  unfold Obligations.OpcodeRowsDisjoint
  have hne : opcodeTable.Pairwise (· ≠ ·) := opcodeTable_mnemonics_nodup.of_map
  exact hne.imp_of_mem fun hr hq hrq _ ⟨hwr, hwq⟩ => hrq (opcodeTable_row_unique hr hq hwr hwq)

/-! ### The fields that a row fixes -/

/-- A field of a word that the mask keeps whole is the field of the masked word. -/
theorem extractLsb'_eq_of_and_eq {w m v : Word} {start len : Nat} (h : w &&& m = v)
    (hm : m.extractLsb' start len = BitVec.allOnes len) : w.extractLsb' start len = v.extractLsb' start len := by
  rw [← h, BitVec.extractLsb'_and, hm, BitVec.and_allOnes]

/-- A row fixes the opcode, and with it each field that a space of that opcode looks at: `funct3`, the upper field of
the register-register and shift forms, and every bit of a system word. -/
def FixesFields (r : OpcodeRow) : Prop :=
  opcodeField r.mask = BitVec.allOnes 7 ∧
  (opcodeField r.value ∈ [0b0110011#7, 0b0010011#7, 0b1100111#7, 0b1100011#7, 0b0000011#7, 0b0100011#7] →
    funct3Field r.mask = BitVec.allOnes 3) ∧
  (opcodeField r.value = 0b0110011#7 ∨ opcodeField r.value = 0b0010011#7 ∧ funct3Field r.value ∈ [0b001#3, 0b101#3] →
    funct7Field r.mask = BitVec.allOnes 7) ∧
  (opcodeField r.value = 0b1110011#7 → r.mask = BitVec.allOnes 32)

theorem opcodeTable_fixesFields : ∀ r ∈ opcodeTable, FixesFields r := by unfold FixesFields; decide

/-- A word with the fixed bits of a row lies in a space only if the row's value does. -/
theorem inSpace_value_of_inSpace {w : Word} {r : OpcodeRow} {e : DecodeError} (hr : FixesFields r)
    (h : w &&& r.mask = r.value) (hs : InSpace w e) : InSpace r.value e := by
  obtain ⟨mop, m3, m7, mall⟩ := hr
  have hop : opcodeField w = opcodeField r.value := extractLsb'_eq_of_and_eq h mop
  have h3 (hv) : funct3Field w = funct3Field r.value := extractLsb'_eq_of_and_eq h (m3 hv)
  have h7 (hv) : funct7Field w = funct7Field r.value := extractLsb'_eq_of_and_eq h (m7 hv)
  cases e with
  | tooShort => exact hs
  | sixteenBitSpace => rwa [InSpace, ← opcodeField_low_bits, hop, opcodeField_low_bits] at hs
  | unusedOpcode => rwa [InSpace, ← opcodeField_low_bits, hop, opcodeField_low_bits] at hs
  | registerArithmetic =>
    have hv : opcodeField r.value = 0b0110011#7 := hop ▸ hs.1
    rwa [InSpace, hop, h3 (by simp [hv]), h7 (.inl hv)] at hs
  | shiftImmediate =>
    have hv : opcodeField r.value = 0b0010011#7 := hop ▸ hs.1
    rw [InSpace, hop, h3 (by simp [hv])] at hs
    have hshift : funct3Field r.value ∈ [0b001#3, 0b101#3] := by
      rcases hs.2 with ⟨hf, _⟩ | ⟨hf, _⟩ <;> simp [hf]
    rwa [h7 (.inr ⟨hv, hshift⟩)] at hs
  | jumpRegister | branch | load | store =>
    have hv := hop ▸ hs.1
    rwa [InSpace, hop, h3 (by simp [hv])] at hs
  | system =>
    have hv : opcodeField r.value = 0b1110011#7 := hop ▸ hs.1
    rw [mall hv, BitVec.and_allOnes] at h
    rwa [h] at hs

/-- The value of a row decodes. -/
theorem opcodeTable_value_decodes : ∀ r ∈ opcodeTable, (decode r.value).isOk = true := by decide

theorem decode_of_row {w : Word} {r : OpcodeRow} (hr : r ∈ opcodeTable) (h : w &&& r.mask = r.value) :
    ∃ i, decode w = .ok i := by
  cases hd : decode w with
  | ok i => exact ⟨i, rfl⟩
  | error e =>
    have hs := inSpace_value_of_inSpace (opcodeTable_fixesFields r hr) h ((decode_error_iff w e).mp hd)
    have hok := opcodeTable_value_decodes r hr
    rw [(decode_error_iff r.value e).mpr hs] at hok
    cases hok

/-! ### The row of an instruction -/

/-- The word of an instruction has the fixed bits of the row of its mnemonic: each instruction has its own lemma. -/
theorem tableRow (i : Instr) : Laws.TableRow.Statement i := by
  open Laws.TableRow in
  exact i.rec add sub sll slt sltu xor srl sra Laws.TableRow.or Laws.TableRow.and addi slti sltiu andi ori xori slli
    srli srai lui auipc beq bne blt bge bltu bgeu jal jalr lb lbu lh lhu lw sb sh sw ebreak

/-- A word that decodes has the fixed bits of the row of what it decodes to. -/
theorem row_of_decode {w : Word} {i : Instr} (h : decode w = .ok i) :
    ∃ r ∈ opcodeTable, r.mnemonic = mnemonicOf i ∧ w &&& r.mask = r.value := by
  obtain ⟨_, rfl⟩ := encodes_of_decode h
  exact tableRow i

/-- Settles O41: the row of a word that decodes is the row of its instruction's mnemonic. -/
theorem decodeMatchesOpcodeTable : Obligations.DecodeMatchesOpcodeTable := by
  unfold Obligations.DecodeMatchesOpcodeTable
  refine fun w r hr => ⟨fun hw => ?bits, fun ⟨i, hd, hi⟩ => ?name⟩
  case bits =>
    obtain ⟨i, hd⟩ := decode_of_row hr hw
    obtain ⟨q, hq, hqi, hwq⟩ := row_of_decode hd
    exact ⟨i, hd, hqi.symm.trans (congrArg _ (opcodeTable_row_unique hq hr hwq hw))⟩
  case name =>
    obtain ⟨q, hq, hqi, hwq⟩ := row_of_decode hd
    exact opcodeTable_mnemonic_inj hq hr (hqi.trans hi) ▸ hwq

end Sys2Proof.Machine
end

section
/-! PROOF. What every instruction does and leaves alone: it answers a next state, which differs from the state before it
in no register but its own and keeps the instruction view and the platform. All by the shapes of a next state. -/

namespace Sys2Proof.Machine

open Sys2Proof.Claim

theorem exec_next (i : Instr) (s : State) : ∃ t, exec i s = .next t := by cases i <;> exact ⟨_, rfl⟩

/-- Settles O51: each arm of `exec` is a next state. -/
theorem everyInstructionAnswersNext : Obligations.EveryInstructionAnswersNext := by
  unfold Obligations.EveryInstructionAnswersNext
  exact exec_next

/-- Settles O12: a write to `x0` is discarded. -/
theorem zeroRegisterReadsZero : Obligations.ZeroRegisterReadsZero := by
  unfold Obligations.ZeroRegisterReadsZero
  exact fun s v => ⟨readReg_zero s, readReg_zero _, writeReg_zero s v⟩

theorem readReg_writeReg_of_ne {s : State} {d r : Reg} {v : Word} (h : r ≠ d) :
    readReg (writeReg s d v) r = readReg s r := by
  rw [readReg_writeReg, if_neg fun hr => h hr.1]

/-- Of the shapes of a next state, only those with a destination write a register, and only that one. -/
theorem readReg_of_exec {i : Instr} {s t : State} {r : Reg} (h : exec i s = .next t) (hr : destReg i ≠ some r) :
    readReg t r = readReg s r := by
  cases exec_shape h with
  | set rd v hd | link rd v a hd =>
    have hne : r ≠ rd := fun e => hr (e ▸ hd)
    exact readReg_writeReg_of_ne hne
  | adv | jmp | rse | sto | hlt => simp

/-- Settles O14: by the shapes of a next state. -/
theorem onlyTheDestinationIsWritten : Obligations.OnlyTheDestinationIsWritten := by
  unfold Obligations.OnlyTheDestinationIsWritten
  exact fun _ _ _ h _ => readReg_of_exec h

theorem exec_imem {i : Instr} {s t : State} (h : exec i s = .next t) : t.imem = s.imem := by
  cases exec_shape h <;> simp

theorem exec_plat {i : Instr} {s t : State} (h : exec i s = .next t) : t.plat = s.plat := by
  cases exec_shape h <;> simp

end Sys2Proof.Machine
end

section
/-! PROOF. The nine register-immediate instructions (41_register_immediate.md R120 to R129), the corner case of SRA and
the constants that LUI and ADDI build. One rule serves the six with an immediate and one the three shifts: the word is
the encoding, which the decoder reads back, and the value is that of the register-register instructions. -/

namespace Sys2Proof.Machine

open Sys2Proof.Claim

/-! ### The two rules -/

/-- An instruction with an immediate obeys its rule if it sets `rd` to a value `f` of its source and the sign-extended
immediate that `P` describes. -/
theorem immediateRule_of_exec_eq {f3 : BitVec 3} {mk : Reg → Reg → BitVec 12 → Instr} {P : Word → Word → Word → Prop}
    (f : Word → Word → Word) (hencode : ∀ rd rs1 imm, encode (mk rd rs1 imm) = packI imm rs1 f3 rd 0b0010011#7)
    (hwf : ∀ rd rs1 imm, WellFormed (mk rd rs1 imm) = true)
    (hexec : ∀ rd rs1 imm s, exec (mk rd rs1 imm) s = .next (setAndAdvance s rd (f (readReg s rs1) (immI imm))))
    (hvalue : ∀ a b, P a b (f a b)) : ImmediateRule f3 mk P := by
  intro rd rs1 imm s b hb
  obtain rfl := eq_sext_of_isSignExtended hb
  have hdecode : decode (packI imm rs1 f3 rd 0b0010011#7) = .ok (mk rd rs1 imm) :=
    hencode rd rs1 imm ▸ decode_encode (hwf rd rs1 imm)
  exact ⟨hdecode, setsRegister_of_exec_eq (hexec rd rs1 imm s) (hvalue _ _)⟩

/-- A shift by a constant obeys its rule if it sets `rd` to a value `f` of its source and the amount that `P` describes.
-/
theorem shiftRule_of_exec_eq {f7 : BitVec 7} {f3 : BitVec 3} {mk : Reg → Reg → BitVec 5 → Instr}
    {P : Word → Nat → Word → Prop} (f : Word → Nat → Word)
    (hencode : ∀ rd rs1 shamt, encode (mk rd rs1 shamt) = packR f7 shamt rs1 f3 rd 0b0010011#7)
    (hwf : ∀ rd rs1 shamt, WellFormed (mk rd rs1 shamt) = true)
    (hexec : ∀ rd rs1 shamt s, exec (mk rd rs1 shamt) s = .next (setAndAdvance s rd (f (readReg s rs1) shamt.toNat)))
    (hvalue : ∀ a n, P a n (f a n)) : ShiftRule f7 f3 mk P := by
  intro rd rs1 shamt s
  have hdecode : decode (packR f7 shamt rs1 f3 rd 0b0010011#7) = .ok (mk rd rs1 shamt) :=
    hencode rd rs1 shamt ▸ decode_encode (hwf rd rs1 shamt)
  exact ⟨hdecode, setsRegister_of_exec_eq (hexec rd rs1 shamt s) (hvalue _ _)⟩

/-- Settles O6: the sum with the sign-extended immediate. -/
theorem addImmediate : Obligations.AddImmediate := by
  unfold Obligations.AddImmediate
  exact immediateRule_of_exec_eq (· + ·) (fun _ _ _ => rfl) (fun _ _ _ => rfl) (fun _ _ _ _ => rfl) isSum_add

/-- Settles O7: the comparisons of SLT and SLTU with the sign-extended immediate. -/
theorem compareImmediates : Obligations.CompareImmediates := by
  unfold Obligations.CompareImmediates
  exact ⟨immediateRule_of_exec_eq (fun a b => oneIf (lessSigned a b)) (fun _ _ _ => rfl) (fun _ _ _ => rfl)
      (fun _ _ _ _ => rfl) isLessSigned_oneIf,
    immediateRule_of_exec_eq (fun a b => oneIf (lessUnsigned a b)) (fun _ _ _ => rfl) (fun _ _ _ => rfl)
      (fun _ _ _ _ => rfl) isLessUnsigned_oneIf⟩

/-- Settles O8: the bitwise operations with the sign-extended immediate. -/
theorem bitwiseImmediates : Obligations.BitwiseImmediates := by
  unfold Obligations.BitwiseImmediates
  exact ⟨immediateRule_of_exec_eq (· &&& ·) (fun _ _ _ => rfl) (fun _ _ _ => rfl) (fun _ _ _ _ => rfl) isBitwise_and,
    immediateRule_of_exec_eq (· ||| ·) (fun _ _ _ => rfl) (fun _ _ _ => rfl) (fun _ _ _ _ => rfl) isBitwise_or,
    immediateRule_of_exec_eq (· ^^^ ·) (fun _ _ _ => rfl) (fun _ _ _ => rfl) (fun _ _ _ _ => rfl) isBitwise_xor⟩

/-! ### The shifts -/

/-- A word of the shift form in the space of undefined upper fields is refused. -/
theorem otherShiftsUndefined_of_inSpace {f3 : BitVec 3} {allowed : List (BitVec 7)}
    (h : ∀ f7 ∉ allowed, (f3 = 0b001#3 ∧ f7 ≠ 0b0000000#7) ∨ (f3 = 0b101#3 ∧ f7 ≠ 0b0000000#7 ∧ f7 ≠ 0b0100000#7)) :
    OtherShiftsUndefined f3 allowed := by
  intro f7 shamt rs1 rd hf7
  have hspace : InSpace (packR f7 shamt rs1 f3 rd 0b0010011#7) .shiftImmediate := by
    simpa [InSpace] using h f7 hf7
  exact ⟨_, (decode_error_iff _ _).mpr hspace⟩

/-- Settles O9: the shifts of the register-register instructions, and the undefined space of the shift form. -/
theorem shiftImmediates : Obligations.ShiftImmediates := by
  unfold Obligations.ShiftImmediates
  refine ⟨shiftRule_of_exec_eq shiftLeft (fun _ _ _ => rfl) (fun _ _ _ => rfl) (fun _ _ _ _ => rfl)
      isShiftLeft_shiftLeft,
    shiftRule_of_exec_eq shiftRightLogical (fun _ _ _ => rfl) (fun _ _ _ => rfl) (fun _ _ _ _ => rfl)
      isShiftRightLogical_shiftRightLogical,
    shiftRule_of_exec_eq shiftRightArithmetic (fun _ _ _ => rfl) (fun _ _ _ => rfl) (fun _ _ _ _ => rfl)
      isShiftRightArithmetic_shiftRightArithmetic,
    otherShiftsUndefined_of_inSpace fun f7 hf7 => .inl ⟨rfl, ?_⟩,
    otherShiftsUndefined_of_inSpace fun f7 hf7 => .inr ⟨rfl, ?_⟩⟩
  · simpa using hf7
  · simpa using hf7

/-- An arithmetic right shift by `n` is the floor of the division by `2^n` (40_register_arithmetic.md R108). -/
theorem signed_shiftRightArithmetic (a : Word) (n : Nat) :
    signed (shiftRightArithmetic a n) = Int.fdiv (signed a) (2 ^ n) := by
  rw [signed_eq_toInt, signed_eq_toInt, shiftRightArithmetic, BitVec.toInt_sshiftRight, Int.shiftRight_eq_div_pow,
    Int.fdiv_eq_ediv_of_nonneg _ (by positivity)]
  norm_cast

/-- Settles O5: the shift amount is `rs2` modulo 32, and the shift is a floor division. -/
theorem arithmeticShiftIsFloorDivision : Obligations.ArithmeticShiftIsFloorDivision := by
  unfold Obligations.ArithmeticShiftIsFloorDivision
  intro rd rs1 rs2 s hrd
  refine ⟨_, rfl, ?_⟩
  rw [readReg_setAndAdvance, if_pos ⟨rfl, hrd⟩, shiftAmount_eq_mod, signed_shiftRightArithmetic]

/-! ### Constants and the canonical NOP -/

/-- A sign extension is the signed number modulo `2^32` (00_scope.md R8). -/
theorem sext_toNat {n : Nat} (v : BitVec n) : ((sext v).toNat : Int) = v.toInt % 4294967296 := by
  rw [sext, BitVec.signExtend, BitVec.toNat_ofInt]
  exact Int.toNat_of_nonneg (Int.emod_nonneg _ (by norm_num))

/-- Twelve bits are their value, or from `2^11` on that less `2^12`. -/
theorem toInt_twelve (v : BitVec 12) : v.toInt = if v.toNat < 2048 then (v.toNat : Int) else v.toNat - 4096 := by
  rw [BitVec.toInt_eq_toNat_cond]
  have hiff : 2 * v.toNat < 2 ^ 12 ↔ v.toNat < 2048 := by omega
  simp only [hiff]
  norm_num

/-- The upper 20 bits, rounded up where the lower 12 are negative, and the lower 12 (42_upper_immediate.md, LUI). -/
theorem immU_add_immI (c : Word) : immU ((c + 0x800#32).extractLsb' 12 20) + immI (c.extractLsb' 0 12) = c := by
  have hc := c.isLt
  have hupper : ((c + 0x800#32).extractLsb' 12 20).toNat = (c.toNat + 2048) % 4294967296 / 4096 := by
    rw [BitVec.extractLsb'_toNat, Nat.shiftRight_eq_div_pow, BitVec.toNat_add, BitVec.toNat_ofNat]
    omega
  have hlower : (c.extractLsb' 0 12).toNat = c.toNat % 4096 := by
    rw [BitVec.extractLsb'_toNat, Nat.shiftRight_zero]
  have himm := sext_toNat (c.extractLsb' 0 12)
  rw [toInt_twelve, hlower] at himm
  apply BitVec.eq_of_toNat_eq
  rw [BitVec.toNat_add, immU_toNat, hupper, immI]
  split at himm <;> omega

/-- Settles O11: the second instruction adds to what the first left in `rd`. -/
theorem luiThenAddiBuildsConstant : Obligations.LuiThenAddiBuildsConstant := by
  unfold Obligations.LuiThenAddiBuildsConstant
  intro c rd s hrd
  refine ⟨_, _, rfl, rfl, ?_, fun r hr => ?_⟩
  · simp only [readReg_setAndAdvance, hrd, ne_eq, not_false_eq_true, and_self, if_true, immU_add_immI]
  · simp only [readReg_setAndAdvance, hr, false_and, if_false]

/-- Settles O47: the sum goes to `x0`. -/
theorem nopOnlyAdvances : Obligations.NopOnlyAdvances := by
  unfold Obligations.NopOnlyAdvances
  exact ⟨by decide, fun s => congrArg Host.Outcome.next (setAndAdvance_zero s _)⟩

end Sys2Proof.Machine
end

section
/-! PROOF. Control transfers and the halt (43_branches.md, 44_jumps.md, 46_system.md). Where an instruction has a
transfer target, its next states are two: at the target if that is aligned, or with the record of the target. Where it
has none, `pc` advances, but for EBREAK. -/

namespace Sys2Proof.Machine

open Sys2Proof.Claim

/-! ### A misaligned target raises -/

theorem onlyRaises_raise (s : State) (r : FaultRecord) : OnlyRaises s (raise s r) r :=
  ⟨raise_fault s r, raise_pc s r, readReg_raise s r, fun _ => rfl, raise_imem s r, raise_halted s r, raise_plat s r⟩

theorem raises_of_exec_eq {i : Instr} {s : State} {r : FaultRecord} (h : exec i s = .next (raise s r)) : Raises i s r :=
  ⟨_, h, onlyRaises_raise s r⟩

/-- An instruction with a transfer target raises no record but the target's. -/
theorem eq_of_mayRaise_of_transferTarget {i : Instr} {s : State} {r : FaultRecord} {a : Word} (hr : mayRaise i s r)
    (ha : transferTarget i s = some a) : r = .instructionAddressMisaligned a := by
  cases i
  case beq | bne | blt | bge | bltu | bgeu | jal | jalr =>
    obtain ⟨t, ht, _, rfl⟩ := hr
    cases ht.symm.trans ha
    rfl
  all_goals cases ha

/-- A transfer to a misaligned target raises, whatever the instruction (60_exceptions.md R210). -/
theorem raises_of_misaligned_target {i : Instr} {s : State} {a : Word} (ha : transferTarget i s = some a)
    (hmisaligned : a.toNat % 4 ≠ 0) : Raises i s (.instructionAddressMisaligned a) := by
  obtain ⟨t, ht⟩ := exec_next i s
  cases exec_shape ht with
  | set rd v _ hnone | adv hnone | sto w b v _ hnone => cases hnone.symm.trans ha
  | jmp b hb haligned | link rd v b _ hb haligned =>
    cases hb.symm.trans ha
    exact absurd haligned hmisaligned
  | rse r hr =>
    obtain rfl := eq_of_mayRaise_of_transferTarget hr ha
    exact raises_of_exec_eq ht
  | hlt hi => subst hi; cases ha

/-! ### Branches -/

/-- An instruction without a destination that is no store and no EBREAK, and raises nothing but its target, advances
where it has no target. -/
theorem setsPc_of_no_target {i : Instr} {s : State} (hdest : destReg i = none) (hstore : isStore i = false)
    (hne : i ≠ .ebreak) (hraise : ∀ r, mayRaise i s r → targetMayRaise i s r) (hnone : transferTarget i s = none) :
    SetsPc i s (s.pc + 4#32) := by
  obtain ⟨t, ht⟩ := exec_next i s
  cases exec_shape ht with
  | set rd v hd | link rd v b hd => cases hdest.symm.trans hd
  | adv => exact setsPc_of_exec_eq ht
  | jmp b hb => cases hnone.symm.trans hb
  | rse r hr =>
    obtain ⟨b, hb, _⟩ := hraise r hr
    cases hnone.symm.trans hb
  | sto w b v hs => cases hstore.symm.trans hs
  | hlt hi => exact absurd hi hne

/-- Settles O19: taken, a branch has a misaligned target; not taken, it has none. -/
theorem misalignedBranchChangesNothingElse : Obligations.MisalignedBranchChangesNothingElse := by
  unfold Obligations.MisalignedBranchChangesNothingElse
  intro rs1 rs2 off s hmisaligned i hi
  refine ⟨fun ha => raises_of_misaligned_target ha hmisaligned, ?_⟩
  simp only [List.mem_cons, List.not_mem_nil, or_false] at hi
  rcases hi with rfl | rfl | rfl | rfl | rfl | rfl
  all_goals exact setsPc_of_no_target rfl rfl (by simp) fun _ hr => hr

/-! ### Jumps -/

/-- A jump to an aligned target links and goes there, with the frame the statements ask for. -/
theorem linksAndJumps_of_exec_eq {i : Instr} {s : State} {rd : Reg} {p : Word} (haligned : p.toNat % 4 = 0)
    (hexec : exec i s = .next (transfer s p (writeReg s rd (linkValue s)))) : LinksAndJumps i s rd p := by
  rw [transfer, if_pos haligned] at hexec
  refine ⟨linkValue s, _, isSum_add s.pc 4#32, hexec, setPc_pc _ p, fun r => ?_, fun c => ?_, ?_, ?_, ?_, ?_⟩
  · rw [readReg_setPc, readReg_writeReg]
  all_goals simp

/-- Settles O20: the described target is the model's. -/
theorem jumpAndLink : Obligations.JumpAndLink := by
  unfold Obligations.JumpAndLink
  intro rd off s b target hb ht
  obtain rfl : target = jalTarget s off := by rw [eq_add_of_isSum ht, eq_sext_of_isSignExtended hb]; rfl
  refine ⟨fun heven => ?_, fun ha => linksAndJumps_of_exec_eq ha rfl, raises_of_misaligned_target rfl⟩
  exact decode_encode (i := .jal rd off) ((evenOffset_iff off).mpr heven)

/-- Clearing bit 0 is halving and doubling (44_jumps.md R172). -/
theorem and_clear_bit0_toNat (v : Word) : (v &&& 0xFFFFFFFE#32).toNat = v.toNat / 2 * 2 := by
  have hshift : v &&& 0xFFFFFFFE#32 = v >>> 1 <<< 1 := by
    apply BitVec.eq_of_getLsbD_eq
    intro k hk
    have hmask : (0xFFFFFFFE#32).getLsbD k = decide (1 ≤ k) := by revert k; decide
    rw [BitVec.getLsbD_and, hmask, BitVec.getLsbD_shiftLeft, BitVec.getLsbD_ushiftRight]
    cases k with
    | zero => simp
    | succ k => simp [hk, Nat.add_comm]
  have hv := v.isLt
  rw [hshift, BitVec.toNat_shiftLeft, BitVec.toNat_ushiftRight, Nat.shiftLeft_eq, Nat.shiftRight_eq_div_pow]
  omega

theorem getLsbD_one (v : Word) : v.getLsbD 1 = decide (v.toNat / 2 % 2 = 1) := by
  rw [BitVec.getLsbD, Nat.testBit_eq_decide_div_mod_eq]

/-- Settles O21: the described target is the model's, and bit 1 of the sum decides whether it is a multiple of 4. -/
theorem jumpAndLinkRegister : Obligations.JumpAndLinkRegister := by
  unfold Obligations.JumpAndLinkRegister
  intro rd rs1 imm s b sum target hb hsum htarget
  obtain rfl : target = jalrTarget s rs1 imm := by
    apply BitVec.eq_of_toNat_eq
    rw [htarget, eq_add_of_isSum hsum, eq_sext_of_isSignExtended hb, jalrTarget, and_clear_bit0_toNat]
    rfl
  refine ⟨decode_encode (i := .jalr rd rs1 imm) rfl, fun hbit => linksAndJumps_of_exec_eq ?_ rfl,
    fun hbit => raises_of_misaligned_target rfl ?_⟩
  all_goals
    simp only [getLsbD_one, decide_eq_true_eq, decide_eq_false_iff_not] at hbit
    omega

/-! ### Where `pc` goes, and the sums -/

/-- Settles O22: each shape of a next state says where `pc` is and which targets its instruction has. -/
theorem programCounterAdvances : Obligations.ProgramCounterAdvances := by
  unfold Obligations.ProgramCounterAdvances
  intro i s t _ h hfault
  cases exec_shape h with
  | set rd v _ hnone hne | adv hnone hne | sto w a v _ hnone hne =>
    exact ⟨fun b hb => (nomatch hnone.symm.trans hb), fun _ _ => by simp, fun hi => absurd hi hne⟩
  | jmp a ha | link rd v a _ ha =>
    refine ⟨fun b hb => ?_, fun hnone => (nomatch hnone.symm.trans ha), fun hi => ?_⟩
    · cases ha.symm.trans hb
      rfl
    · subst hi
      cases ha
  | rse r => cases hfault
  | hlt hi =>
    subst hi
    exact ⟨fun b hb => (nomatch hb), fun _ hne => absurd rfl hne, fun _ => rfl⟩

/-- A base and a sign-extended offset are added as numbers, modulo `2^32`. -/
theorem add_sext_toNat {n : Nat} (a : Word) (v : BitVec n) :
    ((a + sext v).toNat : Int) = (a.toNat + v.toInt) % 4294967296 := by
  rw [BitVec.toNat_add, Int.natCast_emod, Int.natCast_add, sext_toNat]
  exact Int.add_emod_emod ..

/-- Settles O23: each is a base and a sign-extended offset, and JALR then clears bit 0. -/
theorem addressSumsWrap : Obligations.AddressSumsWrap := by
  unfold Obligations.AddressSumsWrap
  intro s rs1 imm off far
  refine ⟨add_sext_toNat _ imm, add_sext_toNat _ imm, add_sext_toNat _ off, add_sext_toNat _ far, ?_⟩
  rw [jalrTarget, and_clear_bit0_toNat, immI, ← add_sext_toNat]
  norm_cast

/-! ### Loops and halts -/

/-- What a fetch that runs an instruction has found (10_state.md R20). -/
theorem of_fetchInstr_runs {s : State} {i : Instr} (h : fetchInstr s = .runs i) :
    Running s ∧ s.pc.toNat % 4 = 0 ∧ ∃ w, fetchWord s s.pc = some w ∧ decode w = .ok i := by
  rcases fetchInstr_cases s with ⟨_, hf⟩ | ⟨_, _, _, hf⟩ | ⟨hh, hn, ⟨_, hf⟩ | ⟨_, _, hf⟩ | ⟨hp, _, hrest⟩⟩
  case inr.inr.inr.inr =>
    rcases hrest with ⟨_, hf⟩ | ⟨_, _, _, _, hf⟩ | ⟨w, j, hw, hd, hf⟩
    case inr.inr =>
      cases h.symm.trans hf
      exact ⟨⟨hh, hn⟩, hp, w, hw, hd⟩
    all_goals cases h.symm.trans hf
  all_goals cases h.symm.trans hf

theorem safeRun_of_step_self {s : State} (hs : step s = .next s) (hf : s.fault = none) (k : Nat) : SafeRun k s := by
  induction k with
  | zero => exact hf
  | succ k ih => exact ⟨hf, .inr ⟨s, hs, ih⟩⟩

theorem transfer_self {s : State} (h : s.pc.toNat % 4 = 0) : transfer s s.pc s = s := if_pos h

theorem exec_jal_self {s : State} (h : s.pc.toNat % 4 = 0) : exec (.jal 0#5 0#21) s = .next s := by
  have htarget : jalTarget s 0#21 = s.pc := BitVec.add_zero s.pc
  calc exec (.jal 0#5 0#21) s = .next (transfer s (jalTarget s 0#21) (writeReg s 0#5 (linkValue s))) := rfl
    _ = .next s := by rw [htarget, writeReg_zero, transfer_self h]

theorem exec_beq_self {s : State} (r : Reg) (h : s.pc.toNat % 4 = 0) : exec (.beq r r 0#13) s = .next s := by
  have htarget : branchTarget s 0#13 = s.pc := BitVec.add_zero s.pc
  calc exec (.beq r r 0#13) s = .next (branchIf s (readReg s r == readReg s r) 0#13) := rfl
    _ = .next s := by rw [beq_self_eq_true, branchIf, if_pos rfl, htarget, transfer_self h]

/-- Settles O24: each of the two goes to its own aligned address and changes nothing. -/
theorem jumpToItselfRunsForever : Obligations.JumpToItselfRunsForever := by
  unfold Obligations.JumpToItselfRunsForever
  intro s r ⟨_, hf⟩ hfetch
  have hself : step s = .next s := by
    rcases hfetch with h | h
    · exact (step_of_runs h).trans (exec_jal_self (of_fetchInstr_runs h).2.1)
    · exact (step_of_runs h).trans (exec_beq_self r (of_fetchInstr_runs h).2.1)
  exact ⟨hself, safeRun_of_step_self hself hf⟩

theorem step_of_halted {s : State} (h : s.halted = true) : step s = .fault .halted := by
  simp [step, fetchInstr, h]

/-- Settles O25: EBREAK's meaning is the halt, and a halted machine has no step. -/
theorem ebreakHalts : Obligations.EbreakHalts := by
  unfold Obligations.EbreakHalts
  exact ⟨by decide, fun s => ⟨halt s, rfl, rfl, rfl, readReg_halt s, fun _ => rfl, rfl, rfl, rfl, step_of_halted rfl⟩⟩

/-- A machine that is not halted becomes so by EBREAK alone. -/
theorem halted_iff_of_exec {i : Instr} {s t : State} (hs : s.halted = false) (h : exec i s = .next t) :
    t.halted = true ↔ i = .ebreak := by
  cases exec_shape h with
  | set rd v _ _ hne | adv _ hne | sto w a v _ _ hne => simp [hs, hne]
  | jmp a ha | link rd v a _ ha =>
    have hne : i ≠ .ebreak := fun hi => by subst hi; cases ha
    simp [hs, hne]
  | rse r hr =>
    have hne : i ≠ .ebreak := fun hi => by subst hi; exact hr
    simp [hs, hne]
  | hlt hi => simp [hi]

/-- What a fetch that raises has found (10_state.md R20). -/
theorem of_fetchInstr_raises {s : State} {r : FaultRecord} (h : fetchInstr s = .raises r) :
    Running s ∧ FaultFits s r := by
  rcases fetchInstr_cases s with ⟨_, hf⟩ | ⟨_, _, _, hf⟩ | ⟨hh, hn, ⟨_, hf⟩ | ⟨_, hi, hf⟩ | ⟨_, _, hrest⟩⟩
  case inr.inr.inr.inl =>
    cases h.symm.trans hf
    exact ⟨⟨hh, hn⟩, rfl, hi⟩
  case inr.inr.inr.inr =>
    rcases hrest with ⟨_, hf⟩ | ⟨w, e, _, hd, hf⟩ | ⟨_, _, _, _, hf⟩
    case inr.inl =>
      cases h.symm.trans hf
      exact ⟨⟨hh, hn⟩, rfl, e, hd⟩
    all_goals cases h.symm.trans hf
  all_goals cases h.symm.trans hf

/-- Settles O26: a step raises, which halts nothing, or runs an instruction. -/
theorem onlyEbreakHalts : Obligations.OnlyEbreakHalts := by
  unfold Obligations.OnlyEbreakHalts
  intro s t h
  rcases step_next_cases h with ⟨r, hfetch, rfl⟩ | ⟨i, hfetch, hexec⟩
  · obtain ⟨⟨hh, _⟩, _⟩ := of_fetchInstr_raises hfetch
    exact ⟨hh, by simp [hh, hfetch]⟩
  · obtain ⟨⟨hh, _⟩, _⟩ := of_fetchInstr_runs hfetch
    refine ⟨hh, ?_⟩
    rw [halted_iff_of_exec hh hexec, hfetch, Fetched.runs.injEq]

end Sys2Proof.Machine
end

section
/-! PROOF. Reading what was written (20_memory.md R33 to R36, 45_loads_stores.md). A byte inside a write reads as the
word's byte and one outside as before, and a read is put together of the bytes it addresses. The statements on loads,
stores and fetches follow, with one rule for all loads and one for all stores. -/

namespace Sys2Proof.Machine

open Sys2Proof.Claim

/-! ### Bytes after a write -/

/-- A byte inside a write that does not wrap. -/
theorem get?_memWrite_inside {m : Memory} {a v : Word} {n k : Nat} (hn : n ≤ 4) (h : a.toNat + n ≤ 4294967296)
    (hk : k < n) : Memory.get? (memWrite m a n v) (a.toNat + k) = some (byteOfWord v k) := by
  rw [get?_memWrite m a n v hn h, if_pos (by omega), Nat.add_sub_cancel_left]

/-- A byte outside a write that does not wrap. -/
theorem get?_memWrite_outside {m : Memory} {a v : Word} {n c : Nat} (hn : n ≤ 4) (h : a.toNat + n ≤ 4294967296)
    (hc : c < a.toNat ∨ a.toNat + n ≤ c) : Memory.get? (memWrite m a n v) c = Memory.get? m c := by
  rw [get?_memWrite m a n v hn h, if_neg (by omega)]

/-- A multiple of 4 leaves room for a word. -/
theorem word_room {a : Word} (h : a.toNat % 4 = 0) : a.toNat + 4 ≤ 4294967296 := by
  have ha := a.isLt
  omega

section Word

variable {m : Memory} {a v : Word} (haligned : a.toNat % 4 = 0)

include haligned

theorem get?_memWrite_word {k : Nat} (hk : k < 4) :
    Memory.get? (memWrite m a 4 v) (offsetAddr a k).toNat = some (byteOfWord v k) := by
  have hroom := word_room haligned
  rw [offsetAddr_toNat (by omega), get?_memWrite_inside (by omega) hroom hk]

theorem byteAt_memWrite_word {k : Nat} (hk : k < 4) :
    byteAt (memWrite m a 4 v) (offsetAddr a k) = byteOfWord v k :=
  byteAt_of_get? (get?_memWrite_word haligned hk)

/-- The byte at the address of a word itself. -/
theorem byteAt_memWrite_word_zero : byteAt (memWrite m a 4 v) a = byteOfWord v 0 := by
  simpa only [offsetAddr_zero] using byteAt_memWrite_word (m := m) (v := v) haligned (k := 0) (by decide)

theorem memRead4_memWrite : memRead4 (memWrite m a 4 v) a = v := by
  rw [memRead4, byteAt_memWrite_word_zero haligned, byteAt_memWrite_word haligned (by decide),
    byteAt_memWrite_word haligned (by decide), byteAt_memWrite_word haligned (by decide), wordOfBytes_byteOfWord]

theorem wordIn_memWrite : wordIn (memWrite m a 4 v) a = some v := by
  have h0 := get?_memWrite_word (m := m) (v := v) haligned (k := 0) (by decide)
  rw [offsetAddr_zero] at h0
  rw [wordIn, h0, get?_memWrite_word haligned (by decide), get?_memWrite_word haligned (by decide),
    get?_memWrite_word haligned (by decide)]
  exact congrArg some (wordOfBytes_byteOfWord v)

end Word

/-! ### The bytes that a read is made of -/

/-- The bits of `v` are those of the bytes from `a` on, least significant first (20_memory.md R34). -/
def HoldsBytes {len : Nat} (m : Memory) (a : Word) (v : BitVec len) : Prop :=
  ∀ k < len, v.getLsbD k = (byteAt m (a + BitVec.ofNat 32 (k / 8))).getLsbD (k % 8)

/-- Bit `k` of byte `j` of such a value. -/
theorem byteAt_getLsbD_eq {m : Memory} {a : Word} {j k : Nat} (hj : k / 8 = j) :
    (byteAt m (a + BitVec.ofNat 32 (k / 8))).getLsbD (k % 8) = (byteAt m (offsetAddr a j)).getLsbD (k - 8 * j) := by
  rw [hj, offsetAddr, show k % 8 = k - 8 * j by omega]

theorem holdsBytes_memRead1 (m : Memory) (a : Word) : HoldsBytes m a (memRead1 m a) := by
  intro k hk
  rw [byteAt_getLsbD_eq (j := 0) (by omega), offsetAddr_zero]
  rfl

theorem holdsBytes_memRead2 (m : Memory) (a : Word) : HoldsBytes m a (memRead2 m a) := by
  intro k hk
  rw [memRead2, BitVec.getLsbD_append]
  obtain byte0 | byte1 : k < 8 ∨ 8 ≤ k := by omega
  · rw [if_pos byte0, byteAt_getLsbD_eq (j := 0) (by omega), offsetAddr_zero]
    rfl
  · rw [if_neg (by omega), byteAt_getLsbD_eq (j := 1) (by omega)]

theorem holdsBytes_memRead4 (m : Memory) (a : Word) : HoldsBytes m a (memRead4 m a) := by
  intro k hk
  rw [memRead4, wordOfBytes_getLsbD]
  obtain byte0 | byte1 | byte2 | byte3 : k < 8 ∨ 8 ≤ k ∧ k < 16 ∨ 16 ≤ k ∧ k < 24 ∨ 24 ≤ k := by omega
  all_goals simp (disch := omega) only [if_pos, if_neg]
  · rw [byteAt_getLsbD_eq (j := 0) (by omega), offsetAddr_zero]
    rfl
  · rw [byteAt_getLsbD_eq (j := 1) (by omega)]
  · rw [byteAt_getLsbD_eq (j := 2) (by omega)]
  · rw [byteAt_getLsbD_eq (j := 3) (by omega)]

/-- Byte `j` of a word read is the byte read at `a + j`. -/
theorem byteOfWord_memRead4 (m : Memory) (a : Word) {j : Nat} (hj : j < 4) :
    byteOfWord (memRead4 m a) j = byteAt m (offsetAddr a j) := by
  apply BitVec.eq_of_getLsbD_eq
  intro k hk
  rw [byteOfWord, extractLsb'_getLsbD_of_eq hk rfl, holdsBytes_memRead4 m a _ (by omega),
    byteAt_getLsbD_eq (j := j) (by omega), Nat.add_sub_cancel_left]

/-- A sign extension of what the bytes hold is what a signed load of them gives. -/
theorem isLoaded_sext {m : Memory} {a : Word} (n : Nat) (hn : 0 < n) {v : BitVec (8 * n)} (h : HoldsBytes m a v) :
    IsLoaded m a n true (sext v) := by
  intro k hk
  rw [sext_getLsbD v hk, h _ (by omega)]
  obtain value | sign : k < 8 * n ∨ 8 * n ≤ k := by omega
  · rw [if_pos value, Nat.min_eq_left (by omega)]
  · rw [if_neg (by omega), Nat.min_eq_right (by omega), show (8 * n - 1) / 8 = n - 1 by omega,
      show (8 * n - 1) % 8 = 7 by omega, Bool.true_and]

/-- A zero extension of what the bytes hold is what an unsigned load of them gives. -/
theorem isLoaded_zext {m : Memory} {a : Word} (n : Nat) {v : BitVec (8 * n)} (h : HoldsBytes m a v) :
    IsLoaded m a n false (zext v) := by
  intro k hk
  rw [zext, BitVec.getLsbD_setWidth, decide_eq_true hk, Bool.true_and, Bool.false_and]
  obtain value | zero : k < 8 * n ∨ 8 * n ≤ k := by omega
  · rw [if_pos value, h k value]
  · rw [if_neg (by omega), BitVec.getLsbD_of_ge v k zero]

/-- A word needs no extension. -/
theorem isLoaded_memRead4 (m : Memory) (a : Word) : IsLoaded m a 4 false (memRead4 m a) := by
  intro k hk
  rw [if_pos (by omega), holdsBytes_memRead4 m a k hk]

/-! ### The checks before an access, as the statements describe them -/

section Checks

variable {rs : AddrSet} {s : State} {w : Width} {a : Word}

theorem alignedFor_eq_false_iff : alignedFor w a = false ↔ a.toNat % widthBytes w ≠ 0 := by
  rw [← Bool.not_eq_true, alignedFor_iff]

theorem allIn_iff_allMember (h : a.toNat % widthBytes w = 0) :
    allIn rs a (widthBytes w) = true ↔ AllMember rs a (widthBytes w) :=
  allIn_iff rs a _ (aligned_room ((alignedFor_iff w a).mpr h))

variable {rd : Reg} {v : Word} {value : Memory → Word → Word}

theorem loadInto_of_allMember (h : a.toNat % widthBytes w = 0) (hin : AllMember s.plat.dmemSet a (widthBytes w)) :
    loadInto s w rd a value = setAndAdvance s rd (value s.mem a) := by
  simp [loadInto, loadFault, (alignedFor_iff w a).mpr h, (allIn_iff_allMember h).mpr hin]

theorem loadInto_of_misaligned (h : a.toNat % widthBytes w ≠ 0) :
    loadInto s w rd a value = raise s (.loadAddressMisaligned a) := by
  simp [loadInto, loadFault, alignedFor_eq_false_iff.mpr h]

theorem loadInto_of_not_allMember (h : a.toNat % widthBytes w = 0)
    (hout : ¬AllMember s.plat.dmemSet a (widthBytes w)) :
    loadInto s w rd a value = raise s (.loadAccessFault a) := by
  rw [← allIn_iff_allMember h, Bool.not_eq_true] at hout
  simp [loadInto, loadFault, (alignedFor_iff w a).mpr h, hout]

theorem storeFrom_of_allMember (h : a.toNat % widthBytes w = 0) (hin : AllMember s.plat.dmemSet a (widthBytes w)) :
    storeFrom s w a v = advance (setMem s (memWrite s.mem a (widthBytes w) v)) := by
  simp [storeFrom, storeFault, (alignedFor_iff w a).mpr h, (allIn_iff_allMember h).mpr hin]

theorem storeFrom_of_misaligned (h : a.toNat % widthBytes w ≠ 0) :
    storeFrom s w a v = raise s (.storeAddressMisaligned a) := by
  simp [storeFrom, storeFault, alignedFor_eq_false_iff.mpr h]

theorem storeFrom_of_not_allMember (h : a.toNat % widthBytes w = 0)
    (hout : ¬AllMember s.plat.dmemSet a (widthBytes w)) :
    storeFrom s w a v = raise s (.storeAccessFault a) := by
  rw [← allIn_iff_allMember h, Bool.not_eq_true] at hout
  simp [storeFrom, storeFault, (alignedFor_iff w a).mpr h, hout]

end Checks

/-! ### Loads -/

section Load

variable {f3 : BitVec 3} {mk : Reg → Reg → BitVec 12 → Instr} {signExtends : Bool} (w : Width)
  (value : Memory → Word → Word)
  (hexec : ∀ rd rs1 imm s, exec (mk rd rs1 imm) s = .next (loadInto s w rd (loadAddr s rs1 imm) value))

include hexec

/-- A load obeys its rule if its value is what the bytes hold. -/
theorem loadRule_of_exec_eq (hencode : ∀ rd rs1 imm, encode (mk rd rs1 imm) = packI imm rs1 f3 rd 0b0000011#7)
    (hwf : ∀ rd rs1 imm, WellFormed (mk rd rs1 imm) = true)
    (hvalue : ∀ m a, IsLoaded m a (widthBytes w) signExtends (value m a)) :
    LoadRule f3 mk (widthBytes w) signExtends := by
  intro rd rs1 imm s
  have hdecode : decode (packI imm rs1 f3 rd 0b0000011#7) = .ok (mk rd rs1 imm) :=
    hencode rd rs1 imm ▸ decode_encode (hwf rd rs1 imm)
  refine ⟨hdecode, fun haligned hin => setsRegister_of_exec_eq ?_ (hvalue s.mem _)⟩
  rw [hexec, loadInto_of_allMember haligned hin]

/-- A load raises one of its two records, misaligned first. -/
theorem loadFaults_of_exec_eq : LoadFaults mk (widthBytes w) := by
  intro rd rs1 imm s
  refine ⟨fun hmisaligned => raises_of_exec_eq ?_, fun haligned hout => raises_of_exec_eq ?_⟩
  · rw [hexec, loadInto_of_misaligned hmisaligned]
  · rw [hexec, loadInto_of_not_allMember haligned hout]

end Load

/-- Settles O27: each load extends what its bytes hold. -/
theorem loadsReadMemory : Obligations.LoadsReadMemory := by
  unfold Obligations.LoadsReadMemory
  refine ⟨loadRule_of_exec_eq .byte _ (fun _ _ _ _ => rfl) (fun _ _ _ => rfl) (fun _ _ _ => rfl) fun m a => ?lb,
    loadRule_of_exec_eq .byte _ (fun _ _ _ _ => rfl) (fun _ _ _ => rfl) (fun _ _ _ => rfl) fun m a => ?lbu,
    loadRule_of_exec_eq .half _ (fun _ _ _ _ => rfl) (fun _ _ _ => rfl) (fun _ _ _ => rfl) fun m a => ?lh,
    loadRule_of_exec_eq .half _ (fun _ _ _ _ => rfl) (fun _ _ _ => rfl) (fun _ _ _ => rfl) fun m a => ?lhu,
    loadRule_of_exec_eq .word _ (fun _ _ _ _ => rfl) (fun _ _ _ => rfl) (fun _ _ _ => rfl) isLoaded_memRead4⟩
  case lb => exact isLoaded_sext 1 (by decide) (holdsBytes_memRead1 m a)
  case lbu => exact isLoaded_zext 1 (holdsBytes_memRead1 m a)
  case lh => exact isLoaded_sext 2 (by decide) (holdsBytes_memRead2 m a)
  case lhu => exact isLoaded_zext 2 (holdsBytes_memRead2 m a)

/-- Settles O28: one rule for the five. -/
theorem loadsFault : Obligations.LoadsFault := by
  unfold Obligations.LoadsFault
  exact ⟨loadFaults_of_exec_eq .byte _ fun _ _ _ _ => rfl, loadFaults_of_exec_eq .byte _ fun _ _ _ _ => rfl,
    loadFaults_of_exec_eq .half _ fun _ _ _ _ => rfl, loadFaults_of_exec_eq .half _ fun _ _ _ _ => rfl,
    loadFaults_of_exec_eq .word _ fun _ _ _ _ => rfl⟩

/-! ### Stores -/

theorem widthBytes_le_four (w : Width) : widthBytes w ≤ 4 := by cases w <;> decide

section Store

variable {f3 : BitVec 3} {mk : Reg → Reg → BitVec 12 → Instr} (w : Width)
  (hexec : ∀ rs2 rs1 imm s, exec (mk rs2 rs1 imm) s = .next (storeFrom s w (storeAddr s rs1 imm) (readReg s rs2)))

include hexec

/-- A store obeys its rule: its bytes lie where it writes them, and nothing else changes but `pc`. -/
theorem storeRule_of_exec_eq (hencode : ∀ rs2 rs1 imm, encode (mk rs2 rs1 imm) = packS imm rs2 rs1 f3 0b0100011#7)
    (hwf : ∀ rs2 rs1 imm, WellFormed (mk rs2 rs1 imm) = true) : StoreRule f3 mk (widthBytes w) := by
  intro rs2 rs1 imm s
  have hdecode : decode (packS imm rs2 rs1 f3 0b0100011#7) = .ok (mk rs2 rs1 imm) :=
    hencode rs2 rs1 imm ▸ decode_encode (hwf rs2 rs1 imm)
  refine ⟨hdecode, fun haligned hin => ?_⟩
  have hroom := aligned_room ((alignedFor_iff w _).mpr haligned)
  refine ⟨_, (hexec rs2 rs1 imm s).trans (congrArg _ (storeFrom_of_allMember haligned hin)), advance_pc _,
    fun r => ?regs, fun k hk => ?inside, fun c hc => ?outside, ?control⟩
  case regs => rw [readReg_advance, readReg_setMem]
  case inside => exact get?_memWrite_inside (widthBytes_le_four w) hroom hk
  case outside => exact get?_memWrite_outside (widthBytes_le_four w) hroom hc
  case control => exact ⟨rfl, rfl, rfl, rfl⟩

/-- A store raises one of its two records, misaligned first. -/
theorem storeFaults_of_exec_eq : StoreFaults mk (widthBytes w) := by
  intro rs2 rs1 imm s
  refine ⟨fun hmisaligned => raises_of_exec_eq ?_, fun haligned hout => raises_of_exec_eq ?_⟩
  · rw [hexec, storeFrom_of_misaligned hmisaligned]
  · rw [hexec, storeFrom_of_not_allMember haligned hout]

end Store

/-- Settles O29: one rule for the three. -/
theorem storesWriteMemory : Obligations.StoresWriteMemory := by
  unfold Obligations.StoresWriteMemory
  exact ⟨storeRule_of_exec_eq .byte (fun _ _ _ _ => rfl) (fun _ _ _ => rfl) fun _ _ _ => rfl,
    storeRule_of_exec_eq .half (fun _ _ _ _ => rfl) (fun _ _ _ => rfl) fun _ _ _ => rfl,
    storeRule_of_exec_eq .word (fun _ _ _ _ => rfl) (fun _ _ _ => rfl) fun _ _ _ => rfl⟩

/-- Settles O30: one rule for the three. -/
theorem storesFault : Obligations.StoresFault := by
  unfold Obligations.StoresFault
  exact ⟨storeFaults_of_exec_eq .byte fun _ _ _ _ => rfl, storeFaults_of_exec_eq .half fun _ _ _ _ => rfl,
    storeFaults_of_exec_eq .word fun _ _ _ _ => rfl⟩

/-! ### Loads and fetches after stores -/

/-- What SW answers where its checks pass. -/
theorem exec_sw {s : State} {rs2 rs1 : Reg} {imm : BitVec 12} (haligned : (storeAddr s rs1 imm).toNat % 4 = 0)
    (hin : AllMember s.plat.dmemSet (storeAddr s rs1 imm) 4) : exec (.sw rs2 rs1 imm) s =
      .next (advance (setMem s (memWrite s.mem (storeAddr s rs1 imm) 4 (readReg s rs2)))) :=
  congrArg Host.Outcome.next (storeFrom_of_allMember (w := .word) haligned hin)

/-- Settles O31: the load passes the checks that the store passed, and reads the word back. -/
theorem loadAfterStoreReturnsTheWord : Obligations.LoadAfterStoreReturnsTheWord := by
  unfold Obligations.LoadAfterStoreReturnsTheWord
  intro s t rd rs2 b c imm imm' hrd haligned hin ht hsame
  cases (exec_sw haligned hin).symm.trans ht
  refine ⟨_, congrArg Host.Outcome.next (loadInto_of_allMember (w := .word) ?_ ?_), ?_⟩
  · rwa [hsame]
  · rwa [hsame]
  · rw [readReg_setAndAdvance, if_pos ⟨rfl, hrd⟩, hsame]
    exact memRead4_memWrite haligned

/-- Two bytes next to each other are the half-word of their bits. -/
theorem byteOfWord_append (v : Word) (k : Nat) :
    byteOfWord v (k + 1) ++ byteOfWord v k = v.extractLsb' (8 * k) 16 := by
  apply BitVec.eq_of_getLsbD_eq
  intro i hi
  rw [BitVec.getLsbD_append, extractLsb'_getLsbD_of_eq hi rfl]
  split
  all_goals exact extractLsb'_getLsbD_of_eq (by omega) (by omega)

/-- The half-words of a word written. -/
theorem memRead2_memWrite {m : Memory} {a v : Word} (haligned : a.toNat % 4 = 0) {k : Nat} (hk : k < 3) :
    memRead2 (memWrite m a 4 v) (offsetAddr a k) = v.extractLsb' (8 * k) 16 := by
  have hnext : offsetAddr (offsetAddr a k) 1 = offsetAddr a (k + 1) := by
    rw [offsetAddr, offsetAddr, offsetAddr, BitVec.add_assoc, BitVec.ofNat_add]
  rw [memRead2, hnext, byteAt_memWrite_word haligned (by omega), byteAt_memWrite_word haligned (by omega),
    byteOfWord_append]

/-- The low byte of a byte extended. -/
theorem byteOfWord_zeroExtend (u : Byte) : byteOfWord (u.zeroExtend 32) 0 = u := by
  apply BitVec.eq_of_getLsbD_eq
  intro i hi
  rw [byteOfWord, extractLsb'_getLsbD_of_eq hi (Nat.zero_add i), BitVec.getLsbD_setWidth, decide_eq_true (by omega),
    Bool.true_and]

/-- The bytes of a word after one of them is overwritten. -/
theorem byteAt_memWrite_byte {m : Memory} {a v : Word} (haligned : a.toNat % 4 = 0) {j k : Nat} (hj : j < 4)
    (hk : k < 4) (u : Byte) :
    byteAt (memWrite (memWrite m a 4 v) (offsetAddr a k) 1 (u.zeroExtend 32)) (offsetAddr a j) =
      if j = k then u else byteOfWord v j := by
  have hroom := word_room haligned
  have htj : (offsetAddr a j).toNat = a.toNat + j := offsetAddr_toNat (by omega)
  have htk : (offsetAddr a k).toNat = a.toNat + k := offsetAddr_toNat (by omega)
  by_cases h : j = k
  · subst h
    rw [if_pos rfl]
    refine byteAt_of_get? ((get?_memWrite_inside (k := 0) (by decide) (by omega) (by decide)).trans ?_)
    rw [byteOfWord_zeroExtend]
  · rw [if_neg h, byteAt_congr (get?_memWrite_outside (by decide) (by omega) (by omega)),
      byteAt_memWrite_word haligned hj]

/-- Settles O33: each read is put together of the word's bytes, and the byte overwritten is one of them. -/
theorem mixedWidthAccess : Obligations.MixedWidthAccess := by
  unfold Obligations.MixedWidthAccess
  intro m a v k u haligned hk
  refine ⟨byteAt_memWrite_word haligned hk, ?_, memRead2_memWrite haligned (k := 2) (by decide),
    memRead4_memWrite haligned, fun j hj => ?_⟩
  · simpa only [offsetAddr_zero] using memRead2_memWrite (m := m) (v := v) haligned (k := 0) (by decide)
  · exact (byteOfWord_memRead4 _ a hj).trans (byteAt_memWrite_byte haligned hj hk u)

/-- Settles O34: the bytes of a write, read one by one, fetched as a word, and decoded. -/
theorem littleEndian : Obligations.LittleEndian := by
  unfold Obligations.LittleEndian
  intro m a v haligned
  exact ⟨fun k hk => get?_memWrite_inside (by decide) (word_room haligned) hk, wordIn_memWrite haligned,
    decodeBytes_bytesOfWord_append v []⟩

/-- Settles O35: the instruction view, which the fetch sees, is kept. -/
theorem separateViewNeverChanges : Obligations.SeparateViewNeverChanges := by
  unfold Obligations.SeparateViewNeverChanges
  intro i s t hsplit h a
  rw [fetchWord_eq, fetchWord_eq, exec_plat h, exec_imem h, hsplit]
  rfl

/-- Settles O36: the data view, which the fetch sees, holds the word. -/
theorem unifiedViewSeesStores : Obligations.UnifiedViewSeesStores := by
  unfold Obligations.UnifiedViewSeesStores
  intro s rs2 rs1 imm hunified haligned hin
  refine ⟨_, exec_sw haligned hin, ?_⟩
  rw [fetchWord_eq, advance_plat, setMem_plat, hunified, if_pos rfl]
  exact wordIn_memWrite haligned

end Sys2Proof.Machine
end

section
/-! PROOF. The step (10_state.md R20, 60_exceptions.md R211 to R214). The fetch's tests are passed one by one, each with
its own lemma; a step that records a fault is a `raise`, by the shapes of a next state; and each of the ways to step
keeps the invariant, which a reset establishes. -/

namespace Sys2Proof.Machine

open Sys2Proof.Claim

/-! ### What the fetch finds -/

theorem allIn_four_iff {rs : AddrSet} {a : Word} (h : a.toNat % 4 = 0) : allIn rs a 4 = true ↔ AllMember rs a 4 :=
  allIn_iff rs a 4 (word_room h)

section Fetch

variable {s : State} (hrun : Running s) (haligned : s.pc.toNat % 4 = 0)

include hrun haligned

theorem fetchInstr_of_not_allMember (hout : ¬AllMember s.plat.imemSet s.pc 4) :
    fetchInstr s = .raises (.fetchAccessFault s.pc) := by
  rw [← allIn_four_iff haligned, Bool.not_eq_true] at hout
  simp [fetchInstr, hrun.1, hrun.2, haligned, hout]

variable (hin : AllMember s.plat.imemSet s.pc 4)

include hin

theorem fetchInstr_of_no_word (hword : fetchWord s s.pc = none) : fetchInstr s = .refuses .unwrittenFetch := by
  rw [← allIn_four_iff haligned] at hin
  simp [fetchInstr, hrun.1, hrun.2, haligned, hin, hword]

theorem fetchInstr_of_undefined {w : Word} {e : DecodeError} (hword : fetchWord s s.pc = some w)
    (hdecode : decode w = .error e) : fetchInstr s = .raises (.illegalInstruction s.pc w) := by
  rw [← allIn_four_iff haligned] at hin
  simp [fetchInstr, hrun.1, hrun.2, haligned, hin, hword, hdecode]

theorem fetchInstr_of_decodes {w : Word} {i : Instr} (hword : fetchWord s s.pc = some w) (hdecode : decode w = .ok i) :
    fetchInstr s = .runs i := by
  rw [← allIn_four_iff haligned] at hin
  simp [fetchInstr, hrun.1, hrun.2, haligned, hin, hword, hdecode]

end Fetch

theorem step_of_raises {s : State} {r : FaultRecord} (h : fetchInstr s = .raises r) : step s = .next (raise s r) := by
  rw [step, h]

theorem step_of_refuses {s : State} {r : Refusal} (h : fetchInstr s = .refuses r) : step s = .refused r := by
  rw [step, h]

theorem step_of_faulted {s : State} {r : FaultRecord} (hh : s.halted = false) (hf : s.fault = some r) :
    step s = .fault (.faulted r) := by
  simp [step, fetchInstr, hh, hf]

/-- Settles O49: the fetch's tests in their order. -/
theorem stepOrder : Obligations.StepOrder := by
  unfold Obligations.StepOrder
  intro s
  refine ⟨step_of_halted, fun r => step_of_faulted, fun hrun haligned => ⟨fun hout => ?outside, fun hin =>
    ⟨fun hword => ?unwritten, fun w e hword hdecode => ?undefined, fun w i hword hdecode => ?runs⟩⟩⟩
  case outside =>
    exact ⟨_, step_of_raises (fetchInstr_of_not_allMember hrun haligned hout), onlyRaises_raise s _⟩
  case unwritten => exact step_of_refuses (fetchInstr_of_no_word hrun haligned hin hword)
  case undefined =>
    exact ⟨_, step_of_raises (fetchInstr_of_undefined hrun haligned hin hword hdecode), onlyRaises_raise s _⟩
  case runs => exact step_of_runs (fetchInstr_of_decodes hrun haligned hin hword hdecode)

/-- With a word in each view a fetch returns one of the two. -/
theorem fetchWord_of_words {s : State} {a v w : Word} (hv : wordIn s.mem a = some v) (hw : wordIn s.imem a = some w) :
    fetchWord s a = some (if s.plat.unified then v else w) := by
  rw [fetchWord_eq, hv, hw]
  split <;> rfl

/-- Settles O48: the views agree, so the fetch returns their word. -/
theorem stepRunsDecodedInstruction : Obligations.StepRunsDecodedInstruction := by
  unfold Obligations.StepRunsDecodedInstruction
  intro s i w hrun haligned hin hmem himem hdecode
  have hword : fetchWord s s.pc = some w := by rw [fetchWord_of_words hmem himem, ite_self]
  exact step_of_runs (fetchInstr_of_decodes hrun haligned hin hword hdecode)

/-- Settles O50: outside IMEM and at an undefined word the step raises, and every instruction answers. -/
theorem runningMachineSteps : Obligations.RunningMachineSteps := by
  unfold Obligations.RunningMachineSteps
  intro s v w hinv hrun hmem himem
  have hword := fetchWord_of_words hmem himem
  by_cases hin : AllMember s.plat.imemSet s.pc 4
  · cases hdecode : decode (if s.plat.unified then v else w) with
    | error e => exact ⟨_, step_of_raises (fetchInstr_of_undefined hrun hinv.pcAligned hin hword hdecode)⟩
    | ok i =>
      obtain ⟨t, ht⟩ := exec_next i s
      exact ⟨t, (step_of_runs (fetchInstr_of_decodes hrun hinv.pcAligned hin hword hdecode)).trans ht⟩
  · exact ⟨_, step_of_raises (fetchInstr_of_not_allMember hrun hinv.pcAligned hin)⟩

/-! ### Faults -/

/-- An instruction that leaves a record has raised it, and it is one that the instruction may raise. -/
theorem eq_raise_of_exec {i : Instr} {s t : State} {r : FaultRecord} (hs : s.fault = none) (h : exec i s = .next t)
    (ht : t.fault = some r) : t = raise s r ∧ mayRaise i s r := by
  cases exec_shape h with
  | set rd v | link rd v => simp [hs] at ht
  | adv | jmp | sto | hlt => simp [hs] at ht
  | rse q hq =>
    cases ht
    exact ⟨rfl, hq⟩

/-- A step that leaves a record is a `raise` of it. -/
theorem eq_raise_of_step {s t : State} {r : FaultRecord} (h : step s = .next t) (ht : t.fault = some r) :
    t = raise s r := by
  rcases step_next_cases h with ⟨q, _, rfl⟩ | ⟨i, hfetch, hexec⟩
  · cases ht
    rfl
  · obtain ⟨⟨_, hs⟩, _⟩ := of_fetchInstr_runs hfetch
    exact (eq_raise_of_exec hs hexec ht).1

/-- Settles O52: a `raise` writes the record alone. -/
theorem faultsArePrecise : Obligations.FaultsArePrecise := by
  unfold Obligations.FaultsArePrecise
  intro s t r h ht
  obtain rfl := eq_raise_of_step h ht
  exact onlyRaises_raise s r

/-- Settles O53: by the shapes of a next state. -/
theorem instructionsRaiseOnlyTheirRecords : Obligations.InstructionsRaiseOnlyTheirRecords := by
  unfold Obligations.InstructionsRaiseOnlyTheirRecords
  exact fun i s t r hs h ht => (eq_raise_of_exec hs h ht).2

/-- Settles O54: neither an instruction nor a `raise` writes them. -/
theorem viewAndPlatformAreConstant : Obligations.ViewAndPlatformAreConstant := by
  unfold Obligations.ViewAndPlatformAreConstant
  intro s t h
  rcases step_next_cases h with ⟨r, _, rfl⟩ | ⟨i, _, hexec⟩
  · exact ⟨raise_imem s r, raise_plat s r⟩
  · exact ⟨exec_imem hexec, exec_plat hexec⟩

/-! ### The invariant -/

/-- A `raise` of a record that fits keeps the invariant. -/
theorem inv_raise {s : State} {r : FaultRecord} (h : Inv s) (hrun : Running s) (hr : FaultFits s r) :
    Inv (raise s r) where
  pcAligned := h.pcAligned
  memForm := h.memForm
  imemForm := h.imemForm
  platForm := h.platForm
  notBoth hb := Bool.false_ne_true (hrun.1.symm.trans hb.1)
  faultFits q hq := by
    cases hq
    cases r <;> exact hr

/-- A state without a record has the invariant if `pc` is aligned and memory, view and platform have their form. -/
theorem inv_of_no_fault {t : State} (hf : t.fault = none) (hpc : t.pc.toNat % 4 = 0) (hmem : Memory.wf t.mem)
    (himem : Memory.wf t.imem) (hplat : Platform.wf t.plat) : Inv t where
  pcAligned := hpc
  memForm := hmem
  imemForm := himem
  platForm := hplat
  notBoth hb := hb.2 hf
  faultFits _ hr := nomatch hf.symm.trans hr

/-- Every instruction of a running machine keeps the invariant. -/
theorem inv_of_exec {i : Instr} {s t : State} (hinv : Inv s) (hrun : Running s) (h : exec i s = .next t) : Inv t := by
  have himem : Memory.wf t.imem := exec_imem h ▸ hinv.imemForm
  have hplat : Platform.wf t.plat := exec_plat h ▸ hinv.platForm
  cases exec_shape h with
  | set rd v =>
    exact inv_of_no_fault (by simpa using hrun.2) (by simpa using add_four_aligned hinv.pcAligned)
      (by simpa using hinv.memForm) himem hplat
  | adv => exact inv_of_no_fault hrun.2 (add_four_aligned hinv.pcAligned) hinv.memForm himem hplat
  | jmp a _ ha => exact inv_of_no_fault hrun.2 ha hinv.memForm himem hplat
  | link rd v a _ _ ha => exact inv_of_no_fault (by simpa using hrun.2) ha (by simpa using hinv.memForm) himem hplat
  | rse r _ hr => exact inv_raise hinv hrun hr
  | sto w a v =>
    exact inv_of_no_fault hrun.2 (add_four_aligned hinv.pcAligned) (memWrite_wf hinv.memForm a _ v) himem hplat
  | hlt => exact inv_of_no_fault hrun.2 hinv.pcAligned hinv.memForm himem hplat

/-- Settles O55: a step is a `raise` of a record that fits, or an instruction of a running machine. -/
theorem stepKeepsInvariant : Obligations.StepKeepsInvariant := by
  unfold Obligations.StepKeepsInvariant
  intro s t hinv h
  rcases step_next_cases h with ⟨r, hfetch, rfl⟩ | ⟨i, hfetch, hexec⟩
  · obtain ⟨hrun, hr⟩ := of_fetchInstr_raises hfetch
    exact inv_raise hinv hrun hr
  · obtain ⟨hrun, _⟩ := of_fetchInstr_runs hfetch
    exact inv_of_exec hinv hrun hexec

/-! ### Reset -/

theorem Memory.filter_wf {m : Memory} (h : Memory.wf m) (p : Host.Cell → Bool) : Memory.wf (m.filter p) :=
  ⟨h.1.filter p, fun c hc => h.2 c (List.mem_of_mem_filter hc)⟩

/-- A byte of a memory restricted to some addresses. -/
theorem Memory.get?_filter (m : Memory) (p : Nat → Bool) (a : Nat) :
    Memory.get? (m.filter fun c => p c.1) a = if p a = true then Memory.get? m a else none := by
  induction m with
  | nil => simp
  | cons c rest ih =>
    obtain ⟨k, v⟩ := c
    by_cases hk : k = a
    · subst hk
      cases hp : p k <;> simp [hp, Memory.get?, ih]
    · cases hp : p k <;> simp [hp, Memory.get?, ih, hk]

theorem inv_resetOf {p : Platform} (h : Platform.wf p) : Inv (State.resetOf p) :=
  inv_of_no_fault rfl h.1 h.2.2 (Memory.filter_wf h.2.2 _) h

theorem platform_default_wf : Platform.wf Platform.default :=
  ⟨by decide, by decide, by decide⟩

/-- Settles O56: the default platform is legal. -/
theorem resetMeetsInvariant : Obligations.ResetMeetsInvariant := by
  unfold Obligations.ResetMeetsInvariant
  exact ⟨fun _ => inv_resetOf, inv_resetOf platform_default_wf⟩

/-- Settles O57: the instruction view is `INIT_MEM` restricted to IMEM. -/
theorem resetState : Obligations.ResetState := by
  unfold Obligations.ResetState
  exact fun p => ⟨rfl, ⟨rfl, rfl⟩, readReg_zero _, rfl, fun _ => rfl,
    Memory.get?_filter p.initMem (memberAddr p.imemSet)⟩

end Sys2Proof.Machine
end

section
/-! PROOF. What an instruction and a step depend on (10_state.md sections 2 and 4, 20_memory.md R31, R40). Two states
that agree on what an instruction reads are brought by it to states that agree on as much: proved once for each shared
operation, then for every instruction, with the registers agreed on and the relation of the two memories left open. The
platform parameter `UNIFIED` is read by the fetch alone. -/

namespace Sys2Proof.Machine

open Sys2Proof.Claim

/-- The states agree on the registers `regs`, on `pc`, halt signal, fault record and platform, and their memories are
related by `mems`. -/
structure Agree (regs : Reg → Prop) (mems : Memory → Memory → Prop) (s s' : State) : Prop where
  readReg_eq : ∀ q, regs q → readReg s' q = readReg s q
  pc_eq : s'.pc = s.pc
  halted_eq : s'.halted = s.halted
  fault_eq : s'.fault = s.fault
  plat_eq : s'.plat = s.plat
  mem_rel : mems s.mem s'.mem

namespace Agree

variable {regs : Reg → Prop} {mems : Memory → Memory → Prop} {s s' t t' : State}

/-! ### The updates of the state -/

theorem setPc (h : Agree regs mems s s') (a : Word) : Agree regs mems (setPc s a) (setPc s' a) :=
  ⟨h.readReg_eq, rfl, h.halted_eq, h.fault_eq, h.plat_eq, h.mem_rel⟩

theorem advance (h : Agree regs mems s s') : Agree regs mems (advance s) (advance s') := by
  have hpc : s'.pc + 4#32 = s.pc + 4#32 := by rw [h.pc_eq]
  exact ⟨h.readReg_eq, hpc, h.halted_eq, h.fault_eq, h.plat_eq, h.mem_rel⟩

theorem halt (h : Agree regs mems s s') : Agree regs mems (halt s) (halt s') :=
  ⟨h.readReg_eq, h.pc_eq, rfl, h.fault_eq, h.plat_eq, h.mem_rel⟩

theorem raise (h : Agree regs mems s s') (r : FaultRecord) : Agree regs mems (raise s r) (raise s' r) :=
  ⟨h.readReg_eq, h.pc_eq, h.halted_eq, rfl, h.plat_eq, h.mem_rel⟩

theorem setMem (h : Agree regs mems s s') {m m' : Memory} (hm : mems m m') :
    Agree regs mems (setMem s m) (setMem s' m') :=
  ⟨h.readReg_eq, h.pc_eq, h.halted_eq, h.fault_eq, h.plat_eq, hm⟩

theorem writeReg (h : Agree regs mems s s') (d : Reg) (v : Word) :
    Agree regs mems (writeReg s d v) (writeReg s' d v) where
  readReg_eq q hq := by rw [readReg_writeReg, readReg_writeReg, h.readReg_eq q hq]
  pc_eq := by simpa using h.pc_eq
  halted_eq := by simpa using h.halted_eq
  fault_eq := by simpa using h.fault_eq
  plat_eq := by simpa using h.plat_eq
  mem_rel := by simpa using h.mem_rel

/-! ### The shared operations -/

theorem setAndAdvance (h : Agree regs mems s s') (d : Reg) {v v' : Word} (hv : v' = v) :
    Agree regs mems (setAndAdvance s d v) (setAndAdvance s' d v') := by
  subst hv
  exact (h.writeReg d v').advance

theorem transfer (h : Agree regs mems s s') (ht : Agree regs mems t t') {a a' : Word} (ha : a' = a) :
    Agree regs mems (transfer s a t) (transfer s' a' t') := by
  subst ha
  by_cases haligned : a'.toNat % 4 = 0
  · simpa only [Machine.transfer, if_pos haligned] using ht.setPc a'
  · simpa only [Machine.transfer, if_neg haligned] using h.raise _

theorem branchIf (h : Agree regs mems s s') (off : BitVec 13) {c c' : Bool} (hc : c' = c) :
    Agree regs mems (branchIf s c off) (branchIf s' c' off) := by
  subst hc
  have ha : branchTarget s' off = branchTarget s off := by rw [branchTarget, branchTarget, h.pc_eq]
  cases c' with
  | false => exact h.advance
  | true => exact h.transfer h ha

/-- A jump goes to a target and links the address after its own. -/
theorem jump (h : Agree regs mems s s') (d : Reg) {a a' : Word} (ha : a' = a) :
    Agree regs mems (Machine.transfer s a (Machine.writeReg s d (linkValue s)))
      (Machine.transfer s' a' (Machine.writeReg s' d (linkValue s'))) := by
  have hlink : linkValue s' = linkValue s := by rw [linkValue, linkValue, h.pc_eq]
  rw [hlink]
  exact h.transfer (h.writeReg d _) ha

theorem loadInto (h : Agree regs mems s s') (w : Width) (d : Reg) {a a' : Word} (ha : a' = a)
    {value : Memory → Word → Word} (hv : value s'.mem a = value s.mem a) :
    Agree regs mems (loadInto s w d a value) (loadInto s' w d a' value) := by
  subst ha
  rw [Machine.loadInto, Machine.loadInto, h.plat_eq]
  cases loadFault s.plat w a' with
  | some r => exact h.raise r
  | none => exact h.setAndAdvance d hv

/-- A load's address is made from its source. -/
theorem load (h : Agree regs mems s s') (w : Width) (d : Reg) {rs1 : Reg} {imm : BitVec 12}
    {value : Memory → Word → Word} (h1 : readReg s' rs1 = readReg s rs1)
    (hv : value s'.mem (loadAddr s rs1 imm) = value s.mem (loadAddr s rs1 imm)) :
    Agree regs mems (Machine.loadInto s w d (loadAddr s rs1 imm) value)
      (Machine.loadInto s' w d (loadAddr s' rs1 imm) value) :=
  h.loadInto w d (by rw [loadAddr, loadAddr, h1]) hv

theorem storeFrom (h : Agree regs mems s s')
    (hw : ∀ {m m'} a n v, mems m m' → mems (memWrite m a n v) (memWrite m' a n v)) (w : Width)
    {a a' v v' : Word} (ha : a' = a) (hv : v' = v) :
    Agree regs mems (storeFrom s w a v) (storeFrom s' w a' v') := by
  subst ha hv
  rw [Machine.storeFrom, Machine.storeFrom, h.plat_eq]
  cases storeFault s.plat w a' with
  | some r => exact h.raise r
  | none => exact (h.setMem (hw a' _ v' h.mem_rel)).advance

end Agree

/-! ### Every instruction -/

/-- The bytes that an instruction loads are the same in both memories. -/
def SameLoaded (i : Instr) (s s' : State) : Prop :=
  ∀ k < (loadedBytes i s).2, Memory.get? s'.mem (offsetAddr (loadedBytes i s).1 k).toNat =
    Memory.get? s.mem (offsetAddr (loadedBytes i s).1 k).toNat

/-- States that agree on an instruction's sources and loaded bytes are brought to states that agree. -/
theorem exec_agree {regs : Reg → Prop} {mems : Memory → Memory → Prop} {i : Instr} {s s' t : State}
    (hw : ∀ {m m'} a n v, mems m m' → mems (memWrite m a n v) (memWrite m' a n v)) (h : Agree regs mems s s')
    (hsource : ∀ q ∈ sourceRegs i, regs q) (hload : SameLoaded i s s') (hexec : exec i s = .next t) :
    ∃ t', exec i s' = .next t' ∧ Agree regs mems t t' := by
  have hread : ∀ q ∈ sourceRegs i, readReg s' q = readReg s q := fun q hq => h.readReg_eq q (hsource q hq)
  cases i
  case add | sub | sll | slt | sltu | xor | srl | sra | or | and =>
    simp only [sourceRegs, List.forall_mem_cons] at hread
    obtain ⟨h1, h2, _⟩ := hread
    cases hexec
    exact ⟨_, rfl, h.setAndAdvance _ (by rw [h1, h2])⟩
  case addi | slti | sltiu | andi | ori | xori | slli | srli | srai =>
    simp only [sourceRegs, List.forall_mem_cons] at hread
    obtain ⟨h1, _⟩ := hread
    cases hexec
    exact ⟨_, rfl, h.setAndAdvance _ (by rw [h1])⟩
  case lui => cases hexec; exact ⟨_, rfl, h.setAndAdvance _ rfl⟩
  case auipc => cases hexec; exact ⟨_, rfl, h.setAndAdvance _ (by rw [h.pc_eq])⟩
  case beq | bne | blt | bge | bltu | bgeu =>
    simp only [sourceRegs, List.forall_mem_cons] at hread
    obtain ⟨h1, h2, _⟩ := hread
    cases hexec
    exact ⟨_, rfl, h.branchIf _ (by rw [h1, h2])⟩
  case jal =>
    cases hexec
    exact ⟨_, rfl, h.jump _ (by rw [jalTarget, jalTarget, h.pc_eq])⟩
  case jalr =>
    simp only [sourceRegs, List.forall_mem_cons] at hread
    obtain ⟨h1, _⟩ := hread
    cases hexec
    exact ⟨_, rfl, h.jump _ (by rw [jalrTarget, jalrTarget, h1])⟩
  case lb | lbu =>
    cases hexec
    exact ⟨_, rfl, h.load _ _ (hread _ (.head _)) (congrArg _ (memRead1_congr hload))⟩
  case lh | lhu =>
    cases hexec
    exact ⟨_, rfl, h.load _ _ (hread _ (.head _)) (congrArg _ (memRead2_congr hload))⟩
  case lw =>
    cases hexec
    exact ⟨_, rfl, h.load _ _ (hread _ (.head _)) (memRead4_congr hload)⟩
  case sb | sh | sw =>
    simp only [sourceRegs, List.forall_mem_cons] at hread
    obtain ⟨h2, h1, _⟩ := hread
    cases hexec
    exact ⟨_, rfl, h.storeFrom hw _ (by rw [storeAddr, storeAddr, h1]) h2⟩
  case ebreak => cases hexec; exact ⟨_, rfl, h.halt⟩

/-- Settles O15: the two states agree on all registers but one that the instruction does not read. -/
theorem onlyTheSourcesAreRead : Obligations.OnlyTheSourcesAreRead := by
  unfold Obligations.OnlyTheSourcesAreRead
  intro i s t r v hexec hr
  have hagree : Agree (· ≠ r) Eq s (writeReg s r v) :=
    ⟨fun _ => readReg_writeReg_of_ne, by simp, by simp, by simp, by simp, by simp⟩
  have hload : SameLoaded i s (writeReg s r v) := fun k _ => by rw [writeReg_mem]
  obtain ⟨u, hu, h⟩ := exec_agree (fun _ _ _ hm => by rw [hm]) hagree (fun q hq he => hr (he ▸ hq)) hload hexec
  have himem : u.imem = t.imem := by rw [exec_imem hu, exec_imem hexec, writeReg_imem]
  exact ⟨u, hu, h.pc_eq, h.mem_rel.symm, himem, h.halted_eq, h.fault_eq, h.plat_eq, h.readReg_eq⟩

/-! ### Every step -/

/-- The fetch reads the registers of control, IMEM and the word at `pc`. -/
theorem fetchInstr_congr {s s' : State} (hhalted : s'.halted = s.halted) (hfault : s'.fault = s.fault)
    (hpc : s'.pc = s.pc) (himem : s'.plat.imemSet = s.plat.imemSet) (hword : fetchWord s' s.pc = fetchWord s s.pc) :
    fetchInstr s' = fetchInstr s := by
  simp only [fetchInstr, hhalted, hfault, hpc, himem, hword]

/-- The memories hold the same at these addresses. -/
def SameAt (addresses : Nat → Prop) (m m' : Memory) : Prop :=
  ∀ c, addresses c → Memory.get? m' c = Memory.get? m c

theorem SameAt.put {addresses : Nat → Prop} {m m' : Memory} (h : SameAt addresses m m') (a : Nat) (b : Byte) :
    SameAt addresses (Memory.put m a b) (Memory.put m' a b) := by
  intro c hc
  rw [Memory.get?_put, Memory.get?_put, h c hc]

/-- The same bytes written to both keep what is the same. -/
theorem SameAt.writeBytes {addresses : Nat → Prop} {m m' : Memory} (h : SameAt addresses m m') (a : Word)
    (bs : List Byte) : SameAt addresses (writeBytes m a bs) (writeBytes m' a bs) := by
  induction bs generalizing m m' a with
  | nil => exact h
  | cons b bs ih => exact ih (h.put a.toNat b) _

/-- States that agree and find the same at `pc`, with the same loaded bytes where that is a load, step to states that
agree, each with its own instruction view. -/
theorem step_agree {addresses : Nat → Prop} {s s' t : State} (h : Agree (fun _ => True) (SameAt addresses) s s')
    (hfetch : fetchInstr s' = fetchInstr s) (hload : ∀ i, fetchInstr s = .runs i → SameLoaded i s s')
    (hstep : step s = .next t) :
    ∃ t', step s' = .next t' ∧ t'.imem = s'.imem ∧ Agree (fun _ => True) (SameAt addresses) t t' := by
  rcases step_next_cases hstep with ⟨r, hr, rfl⟩ | ⟨i, hi, hexec⟩
  · exact ⟨_, step_of_raises (hfetch.trans hr), raise_imem s' r, h.raise r⟩
  · obtain ⟨t', ht', hagree⟩ := exec_agree (fun a n v hm => hm.writeBytes a _) h (fun _ _ => trivial) (hload i hi) hexec
    exact ⟨t', (step_of_runs (hfetch.trans hi)).trans ht', exec_imem ht', hagree⟩

theorem step_eq_fault_iff {s : State} {f : Fault} : step s = .fault f ↔ fetchInstr s = .stops f := by
  cases h : fetchInstr s with
  | stops g => simp [step, h]
  | refuses r => simp [step, h]
  | raises r => simp [step, h]
  | runs i =>
    obtain ⟨t, ht⟩ := exec_next i s
    simp [step, h, ht]

theorem step_eq_refused_iff {s : State} {r : Refusal} : step s = .refused r ↔ fetchInstr s = .refuses r := by
  cases h : fetchInstr s with
  | stops g => simp [step, h]
  | refuses q => simp [step, h]
  | raises q => simp [step, h]
  | runs i =>
    obtain ⟨t, ht⟩ := exec_next i s
    simp [step, h, ht]

/-- Settles O58: the two states agree on every register and on the bytes where their memories do. -/
theorem stepDependsOnVisibleStateAlone : Obligations.StepDependsOnVisibleStateAlone := by
  unfold Obligations.StepDependsOnVisibleStateAlone
  intro s s' hregs hpc hhalted hfault hplat hword hload
  have hfetch : fetchInstr s' = fetchInstr s := fetchInstr_congr hhalted hfault hpc (by rw [hplat]) hword
  have hagree : Agree (fun _ => True) (SameAt fun c => Memory.get? s'.mem c = Memory.get? s.mem c) s s' :=
    ⟨fun q _ => hregs q, hpc, hhalted, hfault, hplat, fun _ hc => hc⟩
  refine ⟨fun f hf => ?stops, fun r hr => ?refuses, fun t ht => ?steps⟩
  case stops => rwa [step_eq_fault_iff, hfetch, ← step_eq_fault_iff]
  case refuses => rwa [step_eq_refused_iff, hfetch, ← step_eq_refused_iff]
  case steps =>
    obtain ⟨t', ht', himem, h⟩ := step_agree hagree hfetch hload ht
    exact ⟨t', ht', fun q => h.readReg_eq q trivial, h.pc_eq, h.halted_eq, h.fault_eq, h.plat_eq, himem, h.mem_rel⟩

end Sys2Proof.Machine
end

section
/-! PROOF. The parameter `UNIFIED` (20_memory.md R40, 92_eei_decisions.md D3). Replacing it commutes with every
operation, none of which reads it, and where both views hold the same word it does not change what the fetch finds. -/

namespace Sys2Proof.Machine

/-! ### The shared operations -/

section Operations

variable (b : Bool) (s : State)

theorem writeReg_withUnified (d : Reg) (v : Word) :
    writeReg (withUnified b s) d v = withUnified b (writeReg s d v) := by
  unfold writeReg
  split <;> rfl

theorem setAndAdvance_withUnified (d : Reg) (v : Word) :
    setAndAdvance (withUnified b s) d v = withUnified b (setAndAdvance s d v) := by
  rw [setAndAdvance, writeReg_withUnified]
  rfl

theorem transfer_withUnified (t : State) (a : Word) :
    transfer (withUnified b s) a (withUnified b t) = withUnified b (transfer s a t) := by
  unfold transfer
  split <;> rfl

theorem jump_withUnified (a : Word) (d : Reg) (v : Word) :
    transfer (withUnified b s) a (writeReg (withUnified b s) d v) = withUnified b (transfer s a (writeReg s d v)) := by
  rw [writeReg_withUnified, transfer_withUnified]

theorem branchIf_withUnified (c : Bool) (off : BitVec 13) :
    branchIf (withUnified b s) c off = withUnified b (branchIf s c off) := by
  cases c with
  | false => rfl
  | true => exact transfer_withUnified b s s (branchTarget s off)

theorem loadInto_withUnified (w : Width) (d : Reg) (a : Word) (value : Memory → Word → Word) :
    loadInto (withUnified b s) w d a value = withUnified b (loadInto s w d a value) := by
  have hchecks : loadFault (withUnified b s).plat w a = loadFault s.plat w a := rfl
  rw [loadInto, loadInto, hchecks]
  cases loadFault s.plat w a with
  | some r => rfl
  | none => exact setAndAdvance_withUnified b s d _

theorem storeFrom_withUnified (w : Width) (a v : Word) :
    storeFrom (withUnified b s) w a v = withUnified b (storeFrom s w a v) := by
  have hchecks : storeFault (withUnified b s).plat w a = storeFault s.plat w a := rfl
  rw [storeFrom, storeFrom, hchecks]
  cases storeFault s.plat w a <;> rfl

end Operations

/-! ### Every instruction and the step -/

theorem exec_withUnified (i : Instr) (b : Bool) (s : State) :
    exec i (withUnified b s) = mapNext (withUnified b) (exec i s) := by
  cases i
  case add | sub | sll | slt | sltu | xor | srl | sra | or | and | addi | slti | sltiu | andi | ori | xori | slli | srli
      | srai | lui | auipc => exact congrArg Host.Outcome.next (setAndAdvance_withUnified b s _ _)
  case beq | bne | blt | bge | bltu | bgeu => exact congrArg Host.Outcome.next (branchIf_withUnified b s _ _)
  case jal | jalr => exact congrArg Host.Outcome.next (jump_withUnified b s _ _ _)
  case lb | lbu | lh | lhu | lw => exact congrArg Host.Outcome.next (loadInto_withUnified b s _ _ _ _)
  case sb | sh | sw => exact congrArg Host.Outcome.next (storeFrom_withUnified b s _ _ _)
  case ebreak => rfl

/-- Where both views hold the same word the fetch returns it. -/
theorem fetchWord_of_views_agree {s : State} {a : Word} (h : wordIn s.mem a = wordIn s.imem a) :
    fetchWord s a = wordIn s.mem a := by
  rw [fetchWord_eq, ← h, ite_self]

/-- Settles O37: the fetch finds the same, and every outcome of the step commutes with the replacement. -/
theorem stepIndependentOfUnified : Obligations.StepIndependentOfUnified := by
  unfold Obligations.StepIndependentOfUnified
  intro s b hviews
  have hword : fetchWord (withUnified b s) s.pc = fetchWord s s.pc :=
    (fetchWord_of_views_agree (s := withUnified b s) hviews).trans (fetchWord_of_views_agree hviews).symm
  have hfetch : fetchInstr (withUnified b s) = fetchInstr s := fetchInstr_congr rfl rfl rfl rfl hword
  rw [step, step, hfetch]
  cases fetchInstr s with
  | stops f => rfl
  | refuses r => rfl
  | raises r => rfl
  | runs i => exact exec_withUnified i b s

end Sys2Proof.Machine
end
